-- ==== Sys2Proof/Word.lean ====
section
/-!
DEFINITION. The word types of the core (00_scope.md R6, R7, R10): an 8-bit byte and a 16-bit address.
All arithmetic on them wraps at their width, which is the `mod 256` and `mod 65536` of the spec (R11).
-/

namespace Sys2Proof

/-- A byte: A, X, Y, P, a memory byte or an opcode byte (R6, R10). -/
abbrev Byte := BitVec 8

/-- A 16-bit word: PC and every memory address (R6, R7). -/
abbrev Addr := BitVec 16

end Sys2Proof
end

