-- ==== Sys2Proof/Config.lean ====
section
/-!
DEFINITION. The parameters of the core (00_scope.md R8): `LOAD_ADDR`, `RESET_VECTOR`, `META`, `HANDLERS` and
`RESET_CLEARS_Y`. They are configuration, not state (10_state.md R22). The values the spec fixes for them stand in
Machine/Defaults.lean. `INIT_STATE` is the State argument of the boundary operations (Machine/Boundary.lean).
The model has no free value: the spec leaves no result of an instruction open.
-/

namespace Sys2Proof

/-- The addressing modes (20_memory.md R65), a closed set. `noneAddressing` stands for every placeholder mode (D26). -/
inductive AddrMode where
  | immediate
  | zeroPage
  | zeroPageX
  | zeroPageY
  | absolute
  | absoluteX
  | absoluteY
  | indirectX
  | indirectY
  | noneAddressing
deriving DecidableEq, Repr

/-- A handler of the implemented subset (R2, R113): one for each mnemonic, given the mode when it is invoked. -/
inductive Handler where
  | lda
  | sta
  | adc
  | tax
  | inx
  | brk
deriving DecidableEq, Repr

/-- A record of the opcode metadata (30_encoding.md R83). The dispatcher reads `length` and `mode`; no rule reads
`cycles` (R262), and `mnemonic` names the instruction for a reader only (R113). -/
structure MetaRecord where
  mnemonic : String
  length   : Nat
  mode     : AddrMode
  cycles   : Nat
deriving DecidableEq, Repr

/-- The parameters of R8. `metadata` is the partial map META and `handlers` the set HANDLERS, each a list of pairs of
which the first with the wanted byte counts. -/
structure Config where
  loadAddr     : Addr
  resetVector  : Addr
  metadata     : List (Byte × MetaRecord)
  handlers     : List (Byte × Handler)
  resetClearsY : Bool
deriving DecidableEq, Repr

end Sys2Proof
end

