-- ==== Sys2Proof/Syntax.lean ====
section
/-!
DEFINITION. The instructions: one constructor for each row of spec/opcode_table.json (30_encoding.md R86), in the
table's order. An operand is what the encoding holds: one byte for format B, one 16-bit word for format W (R81, R82).
-/

namespace Sys2Proof

/-- The 26 opcodes of META_DEFAULT (R86). -/
inductive Instr where
  /-- 0x00 `BRK` (R191) -/
  | brk
  /-- 0x61 `ADC ($nn,X)` (R180) -/
  | adcIndirectX (b : Byte)
  /-- 0x65 `ADC $nn` (R175) -/
  | adcZeroPage (b : Byte)
  /-- 0x69 `ADC #$nn` (R174) -/
  | adcImmediate (b : Byte)
  /-- 0x6D `ADC $nnnn` (R177) -/
  | adcAbsolute (w : Addr)
  /-- 0x71 `ADC ($nn),Y` (R181) -/
  | adcIndirectY (b : Byte)
  /-- 0x75 `ADC $nn,X` (R176) -/
  | adcZeroPageX (b : Byte)
  /-- 0x79 `ADC $nnnn,Y` (R179) -/
  | adcAbsoluteY (w : Addr)
  /-- 0x7D `ADC $nnnn,X` (R178) -/
  | adcAbsoluteX (w : Addr)
  /-- 0x81 `STA ($nn,X)` (R146) -/
  | staIndirectX (b : Byte)
  /-- 0x85 `STA $nn` (R141) -/
  | staZeroPage (b : Byte)
  /-- 0x8D `STA $nnnn` (R143) -/
  | staAbsolute (w : Addr)
  /-- 0x91 `STA ($nn),Y` (R147) -/
  | staIndirectY (b : Byte)
  /-- 0x95 `STA $nn,X` (R142) -/
  | staZeroPageX (b : Byte)
  /-- 0x99 `STA $nnnn,Y` (R145) -/
  | staAbsoluteY (w : Addr)
  /-- 0x9D `STA $nnnn,X` (R144) -/
  | staAbsoluteX (w : Addr)
  /-- 0xA1 `LDA ($nn,X)` (R137) -/
  | ldaIndirectX (b : Byte)
  /-- 0xA5 `LDA $nn` (R132) -/
  | ldaZeroPage (b : Byte)
  /-- 0xA9 `LDA #$nn` (R131) -/
  | ldaImmediate (b : Byte)
  /-- 0xAA `TAX` (R161) -/
  | tax
  /-- 0xAD `LDA $nnnn` (R134) -/
  | ldaAbsolute (w : Addr)
  /-- 0xB1 `LDA ($nn),Y` (R138) -/
  | ldaIndirectY (b : Byte)
  /-- 0xB5 `LDA $nn,X` (R133) -/
  | ldaZeroPageX (b : Byte)
  /-- 0xB9 `LDA $nnnn,Y` (R136) -/
  | ldaAbsoluteY (w : Addr)
  /-- 0xBD `LDA $nnnn,X` (R135) -/
  | ldaAbsoluteX (w : Addr)
  /-- 0xE8 `INX` (R164) -/
  | inx
deriving DecidableEq, Repr

end Sys2Proof
end

