-- ==== Sys2Proof/WellFormed.lean ====
section
/-!
DEFINITION. Well-formedness. An operand of an instruction is a bit vector of exactly the width its encoding gives it, and
every value of it is legal (30_encoding.md R82), so the only check an instruction has is that its length is one the core
knows (00_scope.md R9, 30_encoding.md R81). The checks that can fail are those on the configuration (R9, D17) and on a program
image (70_reset_and_hazards.md R236).
-/

namespace Sys2Proof

/-- The length in bytes, opcode and operands (30_encoding.md R81, R86). -/
def Instr.length : Instr → Nat
  | .brk | .tax | .inx => 1
  | .adcIndirectX _ | .adcZeroPage _ | .adcImmediate _ | .adcIndirectY _ | .adcZeroPageX _ => 2
  | .staIndirectX _ | .staZeroPage _ | .staIndirectY _ | .staZeroPageX _ => 2
  | .ldaIndirectX _ | .ldaZeroPage _ | .ldaImmediate _ | .ldaIndirectY _ | .ldaZeroPageX _ => 2
  | .adcAbsolute _ | .adcAbsoluteY _ | .adcAbsoluteX _ => 3
  | .staAbsolute _ | .staAbsoluteY _ | .staAbsoluteX _ => 3
  | .ldaAbsolute _ | .ldaAbsoluteY _ | .ldaAbsoluteX _ => 3

/-- A length the core knows: 1, 2 or 3 (R9). -/
def lengthOk (n : Nat) : Bool := decide (1 ≤ n) && decide (n ≤ 3)

/-- An instruction is well formed: its length is 1, 2 or 3. -/
def Instr.wf (i : Instr) : Bool := lengthOk i.length

/-- A metadata record is well formed (R9): its length is 1, 2 or 3. Its mode is of the closed set by its type. -/
def MetaRecord.wf (r : MetaRecord) : Bool := lengthOk r.length

/-- A configuration is well formed if every record of META is (R9). -/
def Config.wf (c : Config) : Bool := c.metadata.all fun e => e.2.wf

/-- A program image fits: it does not run past 0xFFFF (R236). -/
def Config.imageFits (c : Config) (image : List Byte) : Bool :=
  decide (image.length ≤ 65536 - c.loadAddr.toNat)

end Sys2Proof
end

