-- ==== Sys2Proof/Decode.lean ====
section
/-!
DEFINITION. The decoder and the encoder, written from 30_encoding.md R80 to R86. Decoding looks the whole opcode byte up
(R80, R84) and takes the operand bytes the row's format has (R81, R82); the rest of the bytes is handed back.
-/

namespace Sys2Proof

/-- Why some bytes are no instruction. -/
inductive DecodeError where
  /-- there is no byte at all -/
  | noBytes
  /-- the opcode byte has no record (R88); safe -/
  | unrecognizedOpcode (opcode : Byte)
  /-- the opcode byte has a record, and fewer bytes follow than its length asks for; safe -/
  | truncated (opcode : Byte)
deriving DecidableEq, Repr

/-- The little-endian word with low byte `lo` and high byte `hi` (00_scope.md R11, 20_memory.md R55). -/
def wordOf (lo hi : Byte) : Addr := hi ++ lo

/-- Bits 7 to 0 of a word (R54). -/
def lowByte (w : Addr) : Byte := w.extractLsb' 0 8

/-- Bits 15 to 8 of a word (R54). -/
def highByte (w : Addr) : Byte := w.extractLsb' 8 8

/-- The format of a row (R81): implied, with a byte operand or with a word operand. -/
inductive Form where
  | implied (i : Instr)
  | byteOperand (f : Byte → Instr)
  | wordOperand (f : Addr → Instr)

/-- The opcode table META_DEFAULT (R86), as the instruction each opcode byte begins. -/
def opcodeForm (op : Byte) : Option Form :=
  match op with
  | 0x00#8 => some (.implied .brk)
  | 0x61#8 => some (.byteOperand .adcIndirectX)
  | 0x65#8 => some (.byteOperand .adcZeroPage)
  | 0x69#8 => some (.byteOperand .adcImmediate)
  | 0x6D#8 => some (.wordOperand .adcAbsolute)
  | 0x71#8 => some (.byteOperand .adcIndirectY)
  | 0x75#8 => some (.byteOperand .adcZeroPageX)
  | 0x79#8 => some (.wordOperand .adcAbsoluteY)
  | 0x7D#8 => some (.wordOperand .adcAbsoluteX)
  | 0x81#8 => some (.byteOperand .staIndirectX)
  | 0x85#8 => some (.byteOperand .staZeroPage)
  | 0x8D#8 => some (.wordOperand .staAbsolute)
  | 0x91#8 => some (.byteOperand .staIndirectY)
  | 0x95#8 => some (.byteOperand .staZeroPageX)
  | 0x99#8 => some (.wordOperand .staAbsoluteY)
  | 0x9D#8 => some (.wordOperand .staAbsoluteX)
  | 0xA1#8 => some (.byteOperand .ldaIndirectX)
  | 0xA5#8 => some (.byteOperand .ldaZeroPage)
  | 0xA9#8 => some (.byteOperand .ldaImmediate)
  | 0xAA#8 => some (.implied .tax)
  | 0xAD#8 => some (.wordOperand .ldaAbsolute)
  | 0xB1#8 => some (.byteOperand .ldaIndirectY)
  | 0xB5#8 => some (.byteOperand .ldaZeroPageX)
  | 0xB9#8 => some (.wordOperand .ldaAbsoluteY)
  | 0xBD#8 => some (.wordOperand .ldaAbsoluteX)
  | 0xE8#8 => some (.implied .inx)
  | _ => none

/-- Take a form's operand from the bytes after the opcode (R81, R82); none if they are too few. -/
def Form.assemble : Form → List Byte → Option (Instr × List Byte)
  | .implied i, rest => some (i, rest)
  | .byteOperand f, b :: rest => some (f b, rest)
  | .byteOperand _, [] => none
  | .wordOperand f, lo :: hi :: rest => some (f (wordOf lo hi), rest)
  | .wordOperand _, _ => none

/-- Decode the instruction at the head of some bytes, and hand back the bytes after it. -/
def decode : List Byte → Except DecodeError (Instr × List Byte)
  | [] => .error .noBytes
  | op :: rest =>
    match opcodeForm op with
    | none => .error (.unrecognizedOpcode op)
    | some f =>
      match f.assemble rest with
      | none => .error (.truncated op)
      | some r => .ok r

/-- The opcode byte of an instruction (R86). -/
def Instr.opcode : Instr → Byte
  | .brk => 0x00
  | .adcIndirectX _ => 0x61
  | .adcZeroPage _ => 0x65
  | .adcImmediate _ => 0x69
  | .adcAbsolute _ => 0x6D
  | .adcIndirectY _ => 0x71
  | .adcZeroPageX _ => 0x75
  | .adcAbsoluteY _ => 0x79
  | .adcAbsoluteX _ => 0x7D
  | .staIndirectX _ => 0x81
  | .staZeroPage _ => 0x85
  | .staAbsolute _ => 0x8D
  | .staIndirectY _ => 0x91
  | .staZeroPageX _ => 0x95
  | .staAbsoluteY _ => 0x99
  | .staAbsoluteX _ => 0x9D
  | .ldaIndirectX _ => 0xA1
  | .ldaZeroPage _ => 0xA5
  | .ldaImmediate _ => 0xA9
  | .tax => 0xAA
  | .ldaAbsolute _ => 0xAD
  | .ldaIndirectY _ => 0xB1
  | .ldaZeroPageX _ => 0xB5
  | .ldaAbsoluteY _ => 0xB9
  | .ldaAbsoluteX _ => 0xBD
  | .inx => 0xE8

/-- The operand bytes of an instruction, low byte first (R81). -/
def Instr.operandBytes : Instr → List Byte
  | .brk | .tax | .inx => []
  | .adcIndirectX b | .adcZeroPage b | .adcImmediate b | .adcIndirectY b | .adcZeroPageX b => [b]
  | .staIndirectX b | .staZeroPage b | .staIndirectY b | .staZeroPageX b => [b]
  | .ldaIndirectX b | .ldaZeroPage b | .ldaImmediate b | .ldaIndirectY b | .ldaZeroPageX b => [b]
  | .adcAbsolute w | .adcAbsoluteY w | .adcAbsoluteX w => [lowByte w, highByte w]
  | .staAbsolute w | .staAbsoluteY w | .staAbsoluteX w => [lowByte w, highByte w]
  | .ldaAbsolute w | .ldaAbsoluteY w | .ldaAbsoluteX w => [lowByte w, highByte w]

/-- The bytes of an instruction, in the order memory holds them (R80, R81). -/
def encode (i : Instr) : List Byte := i.opcode :: i.operandBytes

/-- The three bytes, lowest address first, of an instruction whose first `nbits` bits are `w`: byte k is bits
8k+7 to 8k, and every bit from `nbits` up is 0 (opcode_table.json's numbering). -/
def tableBytes (nbits w : Nat) : List Byte :=
  let v := w % 2 ^ nbits
  [BitVec.ofNat 8 v, BitVec.ofNat 8 (v / 256), BitVec.ofNat 8 (v / 65536)]

/-- The instruction the decoder reads from a word of spec/opcode_table.json. -/
def decodeTableWord (nbits w : Nat) : Option Instr :=
  match decode (tableBytes nbits w) with
  | .ok (i, _) => some i
  | .error _ => none

end Sys2Proof
end

