-- ==== Sys2Proof/Machine/State.lean ====
section
/-!
DEFINITION. The state of the core (10_state.md R20, R21), why a step can stop, and the state after reset.
-/

namespace Sys2Proof.Machine

/-- The fatal conditions (60_exceptions.md R200, R201). -/
inductive FatalKind where
  /-- the opcode byte has no metadata record (R202) -/
  | unrecognizedOpcode
  /-- it has a record and no handler (R203) -/
  | notImplemented
  /-- a handler resolves a placeholder mode (R204) -/
  | unsupportedAddressingMode
deriving DecidableEq, Repr

/-- The run state (R21): whether a run is in progress and how the last one ended. `faulted` carries the diagnostic
of R201: the kind, the opcode byte and its address. -/
inductive RunState where
  | idle
  | running
  | halted
  | faulted (kind : FatalKind) (opcode : Byte) (pc : Addr)
deriving DecidableEq, Repr

/-- Memory M (20_memory.md R50): the bytes that differ from `Memory.unwritten`, by strictly rising address. -/
abbrev Memory := List Host.Cell

/-- The state (R20, R21). -/
structure State where
  /-- the accumulator A (R23) -/
  a : Byte
  /-- index register X (R24) -/
  x : Byte
  /-- index register Y (R24) -/
  y : Byte
  /-- the status byte P (R25, R26) -/
  p : Byte
  /-- the program counter PC (R29) -/
  pc : Addr
  /-- the run state (R21) -/
  runState : RunState
  /-- the memory M (R50) -/
  mem : Memory
deriving DecidableEq, Repr

/-- Why the machine stops with a fault. No instruction and no step raises one: a fatal condition of the core is a next
state whose run state is `faulted` (R205). -/
inductive Fault where
  /-- Raised by `Machine.run` alone, when the bound on its steps is used up before the run ends (40_dispatch.md R118: "neither
  Halted nor Faulted"). Safe: nothing can be proved of a run that did not end. -/
  | fuelExhausted
deriving DecidableEq, Repr

/-- Why the model gives no meaning. No step under the default configuration refuses. -/
inductive Refusal where
  /-- Raised by an arm of `exec` for an instruction that has no meaning yet; no arm does. Safe. -/
  | notModelled (mnemonic : String)
  /-- Raised by `dispatch` for a META that is not well formed (00_scope.md R9, a configuration error). Safe. -/
  | illFormedMeta
  /-- Raised by `load` for an image that would run past 0xFFFF (70_reset_and_hazards.md R236). Safe. -/
  | imageTooLong
  /-- Raised by a boundary operation called while a run is in progress (R230, R235, R238, R240), which the host must not do. Safe. -/
  | runInProgress
deriving DecidableEq, Repr

/-- A state at creation. The spec leaves it open (R35, `INIT_STATE`); every boundary operation takes it as an argument,
and this one is the model's DESIGN CHOICE (logs 1 and 2): registers zero, no byte of memory written. Unsafe: a proof could
lean on these zeros. -/
def State.creation : State :=
  { a := 0x00, x := 0x00, y := 0x00, p := 0x00, pc := 0x0000, runState := .idle, mem := [] }

/-- The state right after reset (R230, R232) of `State.creation`: A, X and P zero, Y and M as at creation, the run state Idle, and PC
the word at RESET_VECTOR, which over memory nothing has written is 0x0000 (logs 1 and 2; unsafe). -/
def State.reset : State :=
  { a := 0x00, x := 0x00, y := 0x00, p := 0x00, pc := 0x0000, runState := .idle, mem := [] }

end Sys2Proof.Machine
end

