-- ==== Sys2Proof/Machine/Ops.lean ====
section
/-!
DEFINITION. The named operations over memory and registers, the parts of a step that every instruction shares, and the
raising of a fatal condition with the way on from it.
-/

namespace Sys2Proof.Machine

/-! ### Memory (20_memory.md R50 to R57) -/

/-- What a byte of memory that nothing has written reads as. DESIGN CHOICE (log 2): the spec leaves the contents at creation
open (10_state.md R35) and says that every address is backed (R50). Unsafe. -/
def Memory.unwritten : Byte := 0x00

/-- The byte at key `k`. -/
def Memory.get : Memory → Nat → Byte
  | [], _ => Memory.unwritten
  | (k', v) :: m, k => if k' = k then v else Memory.get m k

/-- One cell, unless it holds what an unlisted address reads as. -/
def Memory.cell (k : Nat) (v : Byte) (m : Memory) : Memory :=
  if v = Memory.unwritten then m else (k, v) :: m

/-- Write the byte `v` at key `k`, keeping the canonical form. -/
def Memory.put : Memory → Nat → Byte → Memory
  | [], k, v => Memory.cell k v []
  | (k', v') :: m, k, v =>
    if k < k' then Memory.cell k v ((k', v') :: m)
    else if k = k' then Memory.cell k v m
    else (k', v') :: Memory.put m k v

/-- The canonical form from key `lo` on: keys rise strictly, lie in the 64 KiB of R50, and no entry is what an unlisted
address reads as. -/
def Memory.wfFrom : Nat → Memory → Bool
  | _, [] => true
  | lo, (k, v) :: m => decide (lo ≤ k) && decide (k < 65536) && decide (v ≠ Memory.unwritten) && Memory.wfFrom (k + 1) m

/-- Memory is in canonical form. -/
def Memory.wf (m : Memory) : Bool := Memory.wfFrom 0 m

/-- `MemRead(addr, 1)` (R51). -/
def State.read (s : State) (addr : Addr) : Byte := Memory.get s.mem addr.toNat

/-- `MemWrite(addr, 1, v)` (R52). -/
def State.write (s : State) (addr : Addr) (v : Byte) : State := { s with mem := Memory.put s.mem addr.toNat v }

/-- `MemRead(addr, 2)` (R53): little-endian, the second byte at `addr + 1` modulo 65536 (R56). -/
def State.read16 (s : State) (addr : Addr) : Addr := wordOf (s.read addr) (s.read (addr + 1))

/-- `MemWrite(addr, 2, w)` (R54): the low byte first. -/
def State.write16 (s : State) (addr : Addr) (w : Addr) : State :=
  (s.write addr (lowByte w)).write (addr + 1) (highByte w)

/-- Write a list of bytes from `addr` on, one by one, lowest address first (70_reset_and_hazards.md R235). -/
def State.placeBytes : State → Addr → List Byte → State
  | s, _, [] => s
  | s, addr, v :: vs => (s.write addr v).placeBytes (addr + 1) vs

/-! ### Registers (00_scope.md R12) -/

/-- `A <- v` -/
def State.setA (s : State) (v : Byte) : State := { s with a := v }
/-- `X <- v` -/
def State.setX (s : State) (v : Byte) : State := { s with x := v }
/-- `Y <- v` -/
def State.setY (s : State) (v : Byte) : State := { s with y := v }
/-- `P <- v`, all eight bits (R26) -/
def State.setP (s : State) (v : Byte) : State := { s with p := v }
/-- `pc <- target` -/
def State.setPc (s : State) (v : Addr) : State := { s with pc := v }
/-- The run state is written (R21). -/
def State.setRunState (s : State) (r : RunState) : State := { s with runState := r }

/-! ### The parts of a step (40_dispatch.md R111) -/

/-- Step 1: the counter advances by one past the opcode byte, modulo 65536 (R31). -/
def State.fetchAdvance (s : State) : State := s.setPc (s.pc + 1)

/-- Step 5: if the counter is what was recorded before the handler, skip the operand bytes (R114, R115). -/
def skipOperands (pcBefore : Addr) (length : Nat) (s : State) : State :=
  if s.pc = pcBefore then s.setPc (s.pc + BitVec.ofNat 16 (length - 1)) else s

/-- Steps 1, 3, 4 and 5 round a handler that completes: advance, record the counter (R33), run the handler, skip. -/
def withHandler (length : Nat) (handler : State → State) (s : State) : State :=
  let fetched := s.fetchAdvance
  skipOperands fetched.pc length (handler fetched)

/-- The three bytes at the program counter, the longest an instruction is (R81), at wrapped addresses (R31, R32). -/
def State.fetchBytes (s : State) : List Byte := [s.read s.pc, s.read (s.pc + 1), s.read (s.pc + 2)]

/-- The instruction at the program counter under META_DEFAULT; none if the opcode byte has no record. Three bytes are
enough for every instruction, so nothing else makes it none. -/
def State.fetch (s : State) : Option Instr :=
  match decode s.fetchBytes with
  | .ok (i, _) => some i
  | .error _ => none

/-! ### Fatal conditions and the run state (60_exceptions.md R205 to R209) -/

/-- Raise a fatal condition: `s` is the state BEFORE the step, so step 1's advance is undone (R206); the run ends and the run
state carries the diagnostic, its pc the opcode byte's address (R201, R205). Nothing is saved and no vector is read. -/
def raise (kind : FatalKind) (opcode : Byte) (s : State) : State :=
  s.setRunState (.faulted kind opcode s.pc)

/-- The way on from a fatal condition, and from Idle and Halted (R209, R217): there is no return instruction; the host calls
`run()`, which sets Running and goes on at the program counter (R110, R119). -/
def startRun (s : State) : State := s.setRunState .running

/-- `halt` (00_scope.md R14): the run ends normally. -/
def halt (s : State) : State := s.setRunState .halted

/-- The number of a fatal condition (R201, D13). -/
def FatalKind.code : FatalKind → Nat
  | .unrecognizedOpcode => 1
  | .notImplemented => 2
  | .unsupportedAddressingMode => 3

end Sys2Proof.Machine
end

