-- ==== Sys2Proof/Machine/Flags.lean ====
section
/-!
DEFINITION. The status byte's flags and every flag computation: ZN (10_state.md R27) and ADC's sum (43_arithmetic.md R170).
-/

namespace Sys2Proof.Machine

/-- The eight flags of P (10_state.md R25). -/
inductive Flag where
  | carry
  | zero
  | interruptDisable
  | decimalMode
  | break1
  | break2
  | overflow
  | negative
deriving DecidableEq, Repr

/-- The bit of P that holds a flag (R25). -/
def Flag.bit : Flag → Nat
  | .carry => 0
  | .zero => 1
  | .interruptDisable => 2
  | .decimalMode => 3
  | .break1 => 4
  | .break2 => 5
  | .overflow => 6
  | .negative => 7

/-- A flag of a status byte. -/
def Flag.get (f : Flag) (p : Byte) : Bool := p.getLsbD f.bit

/-- The status byte with one flag written and the other seven kept. -/
def Flag.put (f : Flag) (v : Bool) (p : Byte) : Byte :=
  let mask : Byte := 1#8 <<< f.bit
  if v then p ||| mask else p &&& ~~~mask

/-- `ZN(v)` on a status byte (R27). -/
def znByte (v : Byte) (p : Byte) : Byte :=
  Flag.put .negative (v.getLsbD 7) (Flag.put .zero (decide (v = 0x00)) p)

/-- `ZN(v)`: sets Zero iff v is 0 and Negative iff bit 7 of v is set, and leaves all else (R27). -/
def State.zn (s : State) (v : Byte) : State := s.setP (znByte v s.p)

/-- What ADC computes. -/
structure AdcSum where
  result   : Byte
  carry    : Bool
  overflow : Bool
deriving DecidableEq, Repr

/-- ADC's sum (R170): operand plus carry, then accumulator plus that, each modulo 256; Carry iff either addition passes
0xFF; Overflow from the memory byte `op`, not from the first sum (R171). The decimal flag plays no part (R172). -/
def adcSum (a0 op : Byte) (cin : Bool) : AdcSum :=
  let first := op.toNat + cin.toNat
  let t : Byte := BitVec.ofNat 8 first
  let second := a0.toNat + t.toNat
  let r : Byte := BitVec.ofNat 8 second
  { result := r
    carry := decide (first > 0xFF) || decide (second > 0xFF)
    overflow := decide (((r ^^^ op) &&& (r ^^^ a0) &&& 0x80#8) ≠ 0#8) }

/-- The status byte after ADC: C and V written, then Z and N from the result (R170). -/
def adcStatus (sum : AdcSum) (p : Byte) : Byte :=
  znByte sum.result (Flag.put .overflow sum.overflow (Flag.put .carry sum.carry p))

end Sys2Proof.Machine
end

