-- ==== Sys2Proof/Machine/Operands.lean ====
section
/-!
DEFINITION. The addressing modes (20_memory.md R65 to R76, 30_encoding.md R82). Each mode's address is ONE definition here,
used by the meanings (which have the operand from the decoder) and by the resolver `EA(mode)` (which reads it at PC). None
writes anything (R66).
-/

namespace Sys2Proof.Machine

/-- ZeroPage (R68): the operand byte, zero-extended. -/
def zeroPage (b : Byte) : Addr := b.setWidth 16

/-- ZeroPage_X and ZeroPage_Y (R69, R70): the 8-bit sum, confined to page zero. -/
def zeroPageIndexed (b index : Byte) : Addr := (b + index).setWidth 16

/-- Absolute_X and Absolute_Y (R72, R73): a 16-bit wrapping add. -/
def absoluteIndexed (w : Addr) (index : Byte) : Addr := w + index.setWidth 16

/-- The word a zero-page pointer names: its high byte is at (ptr + 1) modulo 256 (R74, R75). -/
def pointerWord (s : State) (ptr : Byte) : Addr := wordOf (s.read (zeroPage ptr)) (s.read (zeroPage (ptr + 1)))

/-- Indirect_X (R74): the pointer is the operand byte plus X modulo 256. -/
def indirectX (b : Byte) (s : State) : Addr := pointerWord s (b + s.x)

/-- Indirect_Y (R75): the pointer is the operand byte, and Y is added to the word, modulo 65536. -/
def indirectY (b : Byte) (s : State) : Addr := absoluteIndexed (pointerWord s b) s.y

/-- The resolver `EA(mode)` in a handler, where PC is the address of the first operand byte (R66); none where it raises
UnsupportedAddressingMode (R76). -/
def resolve (mode : AddrMode) (s : State) : Option Addr :=
  match mode with
  | .immediate => some s.pc
  | .zeroPage => some (zeroPage (s.read s.pc))
  | .zeroPageX => some (zeroPageIndexed (s.read s.pc) s.x)
  | .zeroPageY => some (zeroPageIndexed (s.read s.pc) s.y)
  | .absolute => some (s.read16 s.pc)
  | .absoluteX => some (absoluteIndexed (s.read16 s.pc) s.x)
  | .absoluteY => some (absoluteIndexed (s.read16 s.pc) s.y)
  | .indirectX => some (indirectX (s.read s.pc) s)
  | .indirectY => some (indirectY (s.read s.pc) s)
  | .noneAddressing => none

end Sys2Proof.Machine
end

