-- ==== Sys2Proof/Machine/Arithmetic.lean ====
section
/-!
DEFINITION. ADC (43_arithmetic.md R170 to R181). In a meaning, `h` is the state the handler sees (40_dispatch.md R111).
-/

namespace Sys2Proof.Machine

/-- ADC once its operand byte is read (R170): A, C, V, Z and N from the sum of A, the operand and the carry. -/
def adcWith (op : Byte) (h : State) : State :=
  let sum := adcSum h.a op (Flag.get .carry h.p)
  (h.setA sum.result).setP (adcStatus sum h.p)

/-- ADC #$nn (R174) -/
def execAdcImmediate (b : Byte) (s : State) : Host.Outcome State Fault Refusal :=
  .next (withHandler 2 (fun h => adcWith b h) s)

/-- ADC $nn (R175) -/
def execAdcZeroPage (b : Byte) (s : State) : Host.Outcome State Fault Refusal :=
  .next (withHandler 2 (fun h => adcWith (h.read (zeroPage b)) h) s)

/-- ADC $nn,X (R176) -/
def execAdcZeroPageX (b : Byte) (s : State) : Host.Outcome State Fault Refusal :=
  .next (withHandler 2 (fun h => adcWith (h.read (zeroPageIndexed b h.x)) h) s)

/-- ADC $nnnn (R177) -/
def execAdcAbsolute (w : Addr) (s : State) : Host.Outcome State Fault Refusal :=
  .next (withHandler 3 (fun h => adcWith (h.read w) h) s)

/-- ADC $nnnn,X (R178) -/
def execAdcAbsoluteX (w : Addr) (s : State) : Host.Outcome State Fault Refusal :=
  .next (withHandler 3 (fun h => adcWith (h.read (absoluteIndexed w h.x)) h) s)

/-- ADC $nnnn,Y (R179) -/
def execAdcAbsoluteY (w : Addr) (s : State) : Host.Outcome State Fault Refusal :=
  .next (withHandler 3 (fun h => adcWith (h.read (absoluteIndexed w h.y)) h) s)

/-- ADC ($nn,X) (R180) -/
def execAdcIndirectX (b : Byte) (s : State) : Host.Outcome State Fault Refusal :=
  .next (withHandler 2 (fun h => adcWith (h.read (indirectX b h)) h) s)

/-- ADC ($nn),Y (R181) -/
def execAdcIndirectY (b : Byte) (s : State) : Host.Outcome State Fault Refusal :=
  .next (withHandler 2 (fun h => adcWith (h.read (indirectY b h)) h) s)

end Sys2Proof.Machine
end

