-- ==== Sys2Proof/Machine/Control.lean ====
section
/-!
DEFINITION. BRK (44_control.md R190, R191).
-/

namespace Sys2Proof.Machine

/-- BRK (R191): step 1 has moved PC past the opcode byte and the run ends; nothing else is written and step 5 does not run. -/
def execBrk (s : State) : Host.Outcome State Fault Refusal :=
  .next (halt s.fetchAdvance)

end Sys2Proof.Machine
end

