-- ==== Sys2Proof/Machine/LoadStore.lean ====
section
/-!
DEFINITION. LDA and STA (41_load_store.md R130 to R147). In a meaning, `h` is the state the handler sees: step 1 has moved
PC to the first operand byte (40_dispatch.md R111).
-/

namespace Sys2Proof.Machine

/-- LDA once its operand byte is read (R130): A <- v, ZN(A). -/
def ldaWith (v : Byte) (h : State) : State := (h.setA v).zn v

/-- STA once its address is resolved (R140): M[addr] <- A, no flag. -/
def staTo (addr : Addr) (h : State) : State := h.write addr h.a

/-- LDA #$nn (R131) -/
def execLdaImmediate (b : Byte) (s : State) : Host.Outcome State Fault Refusal :=
  .next (withHandler 2 (fun h => ldaWith b h) s)

/-- LDA $nn (R132) -/
def execLdaZeroPage (b : Byte) (s : State) : Host.Outcome State Fault Refusal :=
  .next (withHandler 2 (fun h => ldaWith (h.read (zeroPage b)) h) s)

/-- LDA $nn,X (R133) -/
def execLdaZeroPageX (b : Byte) (s : State) : Host.Outcome State Fault Refusal :=
  .next (withHandler 2 (fun h => ldaWith (h.read (zeroPageIndexed b h.x)) h) s)

/-- LDA $nnnn (R134) -/
def execLdaAbsolute (w : Addr) (s : State) : Host.Outcome State Fault Refusal :=
  .next (withHandler 3 (fun h => ldaWith (h.read w) h) s)

/-- LDA $nnnn,X (R135) -/
def execLdaAbsoluteX (w : Addr) (s : State) : Host.Outcome State Fault Refusal :=
  .next (withHandler 3 (fun h => ldaWith (h.read (absoluteIndexed w h.x)) h) s)

/-- LDA $nnnn,Y (R136) -/
def execLdaAbsoluteY (w : Addr) (s : State) : Host.Outcome State Fault Refusal :=
  .next (withHandler 3 (fun h => ldaWith (h.read (absoluteIndexed w h.y)) h) s)

/-- LDA ($nn,X) (R137) -/
def execLdaIndirectX (b : Byte) (s : State) : Host.Outcome State Fault Refusal :=
  .next (withHandler 2 (fun h => ldaWith (h.read (indirectX b h)) h) s)

/-- LDA ($nn),Y (R138) -/
def execLdaIndirectY (b : Byte) (s : State) : Host.Outcome State Fault Refusal :=
  .next (withHandler 2 (fun h => ldaWith (h.read (indirectY b h)) h) s)

/-- STA $nn (R141) -/
def execStaZeroPage (b : Byte) (s : State) : Host.Outcome State Fault Refusal :=
  .next (withHandler 2 (fun h => staTo (zeroPage b) h) s)

/-- STA $nn,X (R142) -/
def execStaZeroPageX (b : Byte) (s : State) : Host.Outcome State Fault Refusal :=
  .next (withHandler 2 (fun h => staTo (zeroPageIndexed b h.x) h) s)

/-- STA $nnnn (R143) -/
def execStaAbsolute (w : Addr) (s : State) : Host.Outcome State Fault Refusal :=
  .next (withHandler 3 (fun h => staTo w h) s)

/-- STA $nnnn,X (R144) -/
def execStaAbsoluteX (w : Addr) (s : State) : Host.Outcome State Fault Refusal :=
  .next (withHandler 3 (fun h => staTo (absoluteIndexed w h.x) h) s)

/-- STA $nnnn,Y (R145) -/
def execStaAbsoluteY (w : Addr) (s : State) : Host.Outcome State Fault Refusal :=
  .next (withHandler 3 (fun h => staTo (absoluteIndexed w h.y) h) s)

/-- STA ($nn,X) (R146) -/
def execStaIndirectX (b : Byte) (s : State) : Host.Outcome State Fault Refusal :=
  .next (withHandler 2 (fun h => staTo (indirectX b h) h) s)

/-- STA ($nn),Y (R147) -/
def execStaIndirectY (b : Byte) (s : State) : Host.Outcome State Fault Refusal :=
  .next (withHandler 2 (fun h => staTo (indirectY b h) h) s)

end Sys2Proof.Machine
end

