-- ==== Sys2Proof/Machine/RegisterOps.lean ====
section
/-!
DEFINITION. TAX and INX (42_register_ops.md R160 to R164).
-/

namespace Sys2Proof.Machine

/-- TAX's handler (R160): X <- A, ZN(X). -/
def taxHandler (h : State) : State := (h.setX h.a).zn h.a

/-- INX's handler (R163): X <- (X + 1) mod 256, ZN(X); the wrap sets no Carry. -/
def inxHandler (h : State) : State := (h.setX (h.x + 1)).zn (h.x + 1)

/-- TAX (R161) -/
def execTax (s : State) : Host.Outcome State Fault Refusal :=
  .next (withHandler 1 taxHandler s)

/-- INX (R164) -/
def execInx (s : State) : Host.Outcome State Fault Refusal :=
  .next (withHandler 1 inxHandler s)

end Sys2Proof.Machine
end

