-- ==== Sys2Proof/Machine/Dispatch.lean ====
section
/-!
DEFINITION. The meaning of every instruction, one arm for each constructor: one pass of the dispatcher (40_dispatch.md R111)
for an instruction already decoded. `s` is the state before the step, its PC the address of the opcode byte.
-/

namespace Sys2Proof.Machine

def exec (i : Instr) (s : State) : Host.Outcome State Fault Refusal :=
  match i with
  | .brk => Sys2Proof.Machine.execBrk s
  | .adcIndirectX b => Sys2Proof.Machine.execAdcIndirectX b s
  | .adcZeroPage b => Sys2Proof.Machine.execAdcZeroPage b s
  | .adcImmediate b => Sys2Proof.Machine.execAdcImmediate b s
  | .adcAbsolute w => Sys2Proof.Machine.execAdcAbsolute w s
  | .adcIndirectY b => Sys2Proof.Machine.execAdcIndirectY b s
  | .adcZeroPageX b => Sys2Proof.Machine.execAdcZeroPageX b s
  | .adcAbsoluteY w => Sys2Proof.Machine.execAdcAbsoluteY w s
  | .adcAbsoluteX w => Sys2Proof.Machine.execAdcAbsoluteX w s
  | .staIndirectX b => Sys2Proof.Machine.execStaIndirectX b s
  | .staZeroPage b => Sys2Proof.Machine.execStaZeroPage b s
  | .staAbsolute w => Sys2Proof.Machine.execStaAbsolute w s
  | .staIndirectY b => Sys2Proof.Machine.execStaIndirectY b s
  | .staZeroPageX b => Sys2Proof.Machine.execStaZeroPageX b s
  | .staAbsoluteY w => Sys2Proof.Machine.execStaAbsoluteY w s
  | .staAbsoluteX w => Sys2Proof.Machine.execStaAbsoluteX w s
  | .ldaIndirectX b => Sys2Proof.Machine.execLdaIndirectX b s
  | .ldaZeroPage b => Sys2Proof.Machine.execLdaZeroPage b s
  | .ldaImmediate b => Sys2Proof.Machine.execLdaImmediate b s
  | .tax => Sys2Proof.Machine.execTax s
  | .ldaAbsolute w => Sys2Proof.Machine.execLdaAbsolute w s
  | .ldaIndirectY b => Sys2Proof.Machine.execLdaIndirectY b s
  | .ldaZeroPageX b => Sys2Proof.Machine.execLdaZeroPageX b s
  | .ldaAbsoluteY w => Sys2Proof.Machine.execLdaAbsoluteY w s
  | .ldaAbsoluteX w => Sys2Proof.Machine.execLdaAbsoluteX w s
  | .inx => Sys2Proof.Machine.execInx s

end Sys2Proof.Machine
end

