-- ==== Sys2Proof/Machine/Step.lean ====
section
/-!
DEFINITION. One step of the core under the spec's default parameters (Machine/Defaults.lean), and how an instruction is placed
where the next step fetches it.
-/

namespace Sys2Proof.Machine

/-- One step (40_dispatch.md R110, R111). While a run is in progress: fetch the instruction at PC and run it, or raise
UnrecognizedOpcode if its opcode byte has no record (R202). While none is, no step is taken and every register and memory byte
survives (60_exceptions.md R217, log 4). -/
def step (s : State) : Host.Outcome State Fault Refusal :=
  match s.runState with
  | .running =>
    match s.fetch with
    | some i => exec i s
    | none => .next (raise .unrecognizedOpcode (s.read s.pc) s)
  | .idle | .halted | .faulted _ _ _ => .next s

/-- `s` with the instruction of an opcode-table word in the three bytes at its PC and a run in progress: the host's load and its
call of `run()` (70_reset_and_hazards.md R242, log 5). -/
def State.withFetchWord (s : State) (nbits w : Nat) : State :=
  startRun (s.placeBytes s.pc (tableBytes nbits w))

end Sys2Proof.Machine
end

