-- ==== Sys2Proof/Machine/Defaults.lean ====
section
/-!
DEFINITION. The values the spec fixes for the parameters (00_scope.md R8, 30_encoding.md R86). The `cycles` are those of
70_reset_and_hazards.md R262, without the page-cross cycle; nothing reads them.
-/

namespace Sys2Proof

/-- META_DEFAULT: exactly the 26 records of R86. -/
def metaDefault : List (Byte × MetaRecord) :=
  [ (0x00, ⟨"BRK", 1, .noneAddressing, 7⟩),
    (0x61, ⟨"ADC", 2, .indirectX, 6⟩),
    (0x65, ⟨"ADC", 2, .zeroPage, 3⟩),
    (0x69, ⟨"ADC", 2, .immediate, 2⟩),
    (0x6D, ⟨"ADC", 3, .absolute, 4⟩),
    (0x71, ⟨"ADC", 2, .indirectY, 5⟩),
    (0x75, ⟨"ADC", 2, .zeroPageX, 4⟩),
    (0x79, ⟨"ADC", 3, .absoluteY, 4⟩),
    (0x7D, ⟨"ADC", 3, .absoluteX, 4⟩),
    (0x81, ⟨"STA", 2, .indirectX, 6⟩),
    (0x85, ⟨"STA", 2, .zeroPage, 3⟩),
    (0x8D, ⟨"STA", 3, .absolute, 4⟩),
    (0x91, ⟨"STA", 2, .indirectY, 6⟩) ] ++
  [ (0x95, ⟨"STA", 2, .zeroPageX, 4⟩),
    (0x99, ⟨"STA", 3, .absoluteY, 5⟩),
    (0x9D, ⟨"STA", 3, .absoluteX, 5⟩),
    (0xA1, ⟨"LDA", 2, .indirectX, 6⟩),
    (0xA5, ⟨"LDA", 2, .zeroPage, 3⟩),
    (0xA9, ⟨"LDA", 2, .immediate, 2⟩),
    (0xAA, ⟨"TAX", 1, .noneAddressing, 2⟩),
    (0xAD, ⟨"LDA", 3, .absolute, 4⟩),
    (0xB1, ⟨"LDA", 2, .indirectY, 5⟩),
    (0xB5, ⟨"LDA", 2, .zeroPageX, 4⟩),
    (0xB9, ⟨"LDA", 3, .absoluteY, 4⟩),
    (0xBD, ⟨"LDA", 3, .absoluteX, 4⟩),
    (0xE8, ⟨"INX", 1, .noneAddressing, 2⟩) ]

/-- The default HANDLERS: each of the 26 bytes has the handler of its mnemonic, and no other byte has one (R86, D23). -/
def handlersDefault : List (Byte × Handler) :=
  [(0x00, .brk), (0xAA, .tax), (0xE8, .inx)] ++
  [(0x61, .adc), (0x65, .adc), (0x69, .adc), (0x6D, .adc), (0x71, .adc), (0x75, .adc), (0x79, .adc), (0x7D, .adc)] ++
  [(0x81, .sta), (0x85, .sta), (0x8D, .sta), (0x91, .sta), (0x95, .sta), (0x99, .sta), (0x9D, .sta)] ++
  [(0xA1, .lda), (0xA5, .lda), (0xA9, .lda), (0xAD, .lda), (0xB1, .lda), (0xB5, .lda), (0xB9, .lda), (0xBD, .lda)]

/-- The default parameters of R8. -/
def Config.default : Config :=
  { loadAddr := 0x8000
    resetVector := 0xFFFC
    metadata := metaDefault
    handlers := handlersDefault
    resetClearsY := false }

end Sys2Proof
end

