-- ==== Sys2Proof/Machine/MetaDispatch.lean ====
section
/-!
DEFINITION. The dispatcher for ANY META and HANDLERS (40_dispatch.md R111, R113, R117), its handlers mode-parametric as the spec
writes them, reading their operands at PC through the resolver. `Machine.step` is the machine under the defaults.
-/

namespace Sys2Proof.Machine

/-- The record of an opcode byte, `META(op)` (30_encoding.md R84). -/
def recordOf (c : Config) (op : Byte) : Option MetaRecord := c.metadata.lookup op

/-- The handler of an opcode byte, `HANDLERS(op)` (R113). -/
def handlerOf (c : Config) (op : Byte) : Option Handler := c.handlers.lookup op

/-- How a handler ends. -/
inductive HandlerEnd where
  | completed (s : State)
  | halted (s : State)
  | raised (kind : FatalKind)
deriving DecidableEq, Repr

/-- Resolve the mode and go on with the address, or raise UnsupportedAddressingMode before anything is written (R116,
60_exceptions.md R204). -/
def withAddress (mode : AddrMode) (h : State) (body : Addr → State) : HandlerEnd :=
  match resolve mode h with
  | none => .raised .unsupportedAddressingMode
  | some addr => .completed (body addr)

/-- Invoke a handler with the record's mode (step 4). TAX, INX and BRK do not resolve it (R113, D26). -/
def invoke (handler : Handler) (mode : AddrMode) (h : State) : HandlerEnd :=
  match handler with
  | .lda => withAddress mode h fun addr => ldaWith (h.read addr) h
  | .sta => withAddress mode h fun addr => staTo addr h
  | .adc => withAddress mode h fun addr => adcWith (h.read addr) h
  | .tax => .completed (taxHandler h)
  | .inx => .completed (inxHandler h)
  | .brk => .halted (halt h)

/-- Steps 1 to 5 of R111 in order. What raises undoes the step (R206). -/
def dispatchStep (c : Config) (s : State) : State :=
  let op := s.read s.pc
  let fetched := s.fetchAdvance
  match recordOf c op with
  | none => raise .unrecognizedOpcode op s
  | some record =>
    match handlerOf c op with
    | none => raise .notImplemented op s
    | some handler =>
      match invoke handler record.mode fetched with
      | .completed t => skipOperands fetched.pc record.length t
      | .halted t => t
      | .raised kind => raise kind op s

/-- One step under the configuration `c`: refused if META is ill formed (00_scope.md R9), and none while no run is in progress
(R110, log 4). -/
def dispatch (c : Config) (s : State) : Host.Outcome State Fault Refusal :=
  if c.wf then
    match s.runState with
    | .running => .next (dispatchStep c s)
    | .idle | .halted | .faulted _ _ _ => .next s
  else .refused .illFormedMeta

end Sys2Proof.Machine
end

