-- ==== Sys2Proof/Machine/Boundary.lean ====
section
/-!
DEFINITION. The host's operations (70_reset_and_hazards.md R230 to R243): load, reset, run, loadAndRun and the accessors, for any
configuration. None may be called while a run is in progress; each then refuses (R230, R235, R238, R240, log 6).
-/

namespace Sys2Proof.Machine

/-- The core at creation (10_state.md R35) with the parameter INIT_STATE: A, X, Y, P, PC and the memory bytes from 0x0000 on. No
run is in progress and none has ended (R21). -/
def create (a x y p : Byte) (pc : Addr) (bytes : List Byte) : State :=
  State.placeBytes { a := a, x := x, y := y, p := p, pc := pc, runState := .idle, mem := [] } 0x0000 bytes

/-- An operation the host may call only when the run state is not Running. -/
def betweenRuns (s : State) (o : Host.Outcome State Fault Refusal) : Host.Outcome State Fault Refusal :=
  match s.runState with
  | .running => .refused .runInProgress
  | .idle | .halted | .faulted _ _ _ => o

/-- What `reset` leaves (R230, R231, R232). -/
def resetState (c : Config) (s : State) : State :=
  { s with
    a := 0x00
    x := 0x00
    p := 0x00
    y := if c.resetClearsY then 0x00 else s.y
    pc := s.read16 c.resetVector
    runState := .idle }

/-- `reset()` (R230) -/
def reset (c : Config) (s : State) : Host.Outcome State Fault Refusal :=
  betweenRuns s (.next (resetState c s))

/-- What `load` leaves (R235): the image from LOAD_ADDR on, then LOAD_ADDR in the reset vector. -/
def loadState (c : Config) (image : List Byte) (s : State) : State :=
  (s.placeBytes c.loadAddr image).write16 c.resetVector c.loadAddr

/-- `load(programBytes)` (R235), refused for an image that does not fit (R236). -/
def load (c : Config) (image : List Byte) (s : State) : Host.Outcome State Fault Refusal :=
  betweenRuns s (if c.imageFits image then .next (loadState c image s) else .refused .imageTooLong)

/-- The dispatcher loop (40_dispatch.md R110), for at most `fuel` steps (R118). -/
def runLoop (c : Config) : Nat → State → Host.Outcome State Fault Refusal
  | 0, s =>
    match s.runState with
    | .running => .fault .fuelExhausted
    | .idle | .halted | .faulted _ _ _ => .next s
  | fuel + 1, s =>
    match s.runState with
    | .running =>
      match dispatch c s with
      | .next t => runLoop c fuel t
      | .fault r => .fault r
      | .refused r => .refused r
    | .idle | .halted | .faulted _ _ _ => .next s

/-- `run()` (R238): from any non-Running state, set Running and loop. The run state of the state it answers is what the host is
handed: Halted or Faulted(kind, opcode, pc). -/
def run (c : Config) (fuel : Nat) (s : State) : Host.Outcome State Fault Refusal :=
  betweenRuns s (runLoop c fuel (startRun s))

/-- `loadAndRun(programBytes)` (R237): load, reset, run, in that order. -/
def loadAndRun (c : Config) (fuel : Nat) (image : List Byte) (s : State) : Host.Outcome State Fault Refusal :=
  match load c image s with
  | .next t =>
    match reset c t with
    | .next u => run c fuel u
    | .fault r => .fault r
    | .refused r => .refused r
  | .fault r => .fault r
  | .refused r => .refused r

/-- The 8-bit registers the accessors reach (R240, D22). -/
inductive Register where
  | a
  | x
  | y
  | p
deriving DecidableEq, Repr

/-- A value the host reads between runs. -/
def accessorRead {α : Type} (s : State) (v : α) : Except Refusal α :=
  match s.runState with
  | .running => .error .runInProgress
  | .idle | .halted | .faulted _ _ _ => .ok v

/-- The value of an 8-bit register. -/
def State.register (s : State) : Register → Byte
  | .a => s.a
  | .x => s.x
  | .y => s.y
  | .p => s.p

/-- An 8-bit register written, all its bits. -/
def State.setRegister (s : State) : Register → Byte → State
  | .a, v => s.setA v
  | .x, v => s.setX v
  | .y, v => s.setY v
  | .p, v => s.setP v

/-- Read A, X, Y or P (R240). -/
def hostReadRegister (r : Register) (s : State) : Except Refusal Byte := accessorRead s (s.register r)

/-- Write A, X, Y or P (R240); the run state does not change. -/
def hostWriteRegister (r : Register) (v : Byte) (s : State) : Host.Outcome State Fault Refusal :=
  betweenRuns s (.next (s.setRegister r v))

/-- Read PC (R240). -/
def hostReadPc (s : State) : Except Refusal Addr := accessorRead s s.pc

/-- Write PC (R240). -/
def hostWritePc (v : Addr) (s : State) : Host.Outcome State Fault Refusal := betweenRuns s (.next (s.setPc v))

/-- Read a byte of M (R240). -/
def hostReadMemory (addr : Addr) (s : State) : Except Refusal Byte := accessorRead s (s.read addr)

/-- Write a byte of M (R240). -/
def hostWriteMemory (addr : Addr) (v : Byte) (s : State) : Host.Outcome State Fault Refusal :=
  betweenRuns s (.next (s.write addr v))

end Sys2Proof.Machine
end

