-- ==== Sys2Proof/Safety.lean ====
section
/-!
DEFINITION. The words the statements are made of: what a step must leave unchanged, what an instruction must have done,
written in natural numbers as the spec writes it, and the invariant of a run.
-/

namespace Sys2Proof.Machine

/-! ### Instructions by mnemonic -/

/-- The mnemonic's handler of an instruction (30_encoding.md R86). -/
def handlerOfInstr : Instr → Handler
  | .brk => .brk
  | .tax => .tax
  | .inx => .inx
  | .adcIndirectX _ | .adcZeroPage _ | .adcImmediate _ | .adcAbsolute _ => .adc
  | .adcIndirectY _ | .adcZeroPageX _ | .adcAbsoluteY _ | .adcAbsoluteX _ => .adc
  | .staIndirectX _ | .staZeroPage _ | .staAbsolute _ => .sta
  | .staIndirectY _ | .staZeroPageX _ | .staAbsoluteY _ | .staAbsoluteX _ => .sta
  | .ldaIndirectX _ | .ldaZeroPage _ | .ldaImmediate _ | .ldaAbsolute _ => .lda
  | .ldaIndirectY _ | .ldaZeroPageX _ | .ldaAbsoluteY _ | .ldaAbsoluteX _ => .lda

/-- The address an instruction stores to, by the functions its meaning uses; none for one that stores nothing. -/
def storeAddress (i : Instr) (s : State) : Option Addr :=
  match i with
  | .staIndirectX b => some (indirectX b s)
  | .staZeroPage b => some (zeroPage b)
  | .staAbsolute w => some w
  | .staIndirectY b => some (indirectY b s)
  | .staZeroPageX b => some (zeroPageIndexed b s.x)
  | .staAbsoluteY w => some (absoluteIndexed w s.y)
  | .staAbsoluteX w => some (absoluteIndexed w s.x)
  | .brk | .tax | .inx => none
  | .adcIndirectX _ | .adcZeroPage _ | .adcImmediate _ | .adcAbsolute _ => none
  | .adcIndirectY _ | .adcZeroPageX _ | .adcAbsoluteY _ | .adcAbsoluteX _ => none
  | .ldaIndirectX _ | .ldaZeroPage _ | .ldaImmediate _ | .ldaAbsolute _ => none
  | .ldaIndirectY _ | .ldaZeroPageX _ | .ldaAbsoluteY _ | .ldaAbsoluteX _ => none

/-- The memory byte an ADC adds: the byte in the instruction, or the one at its effective address by the functions its meaning uses
(43_arithmetic.md R174 to R181); none for another instruction. -/
def adcOperand (i : Instr) (s : State) : Option Byte :=
  match i with
  | .adcIndirectX b => some (s.read (indirectX b s))
  | .adcZeroPage b => some (s.read (zeroPage b))
  | .adcImmediate b => some b
  | .adcAbsolute w => some (s.read w)
  | .adcIndirectY b => some (s.read (indirectY b s))
  | .adcZeroPageX b => some (s.read (zeroPageIndexed b s.x))
  | .adcAbsoluteY w => some (s.read (absoluteIndexed w s.y))
  | .adcAbsoluteX w => some (s.read (absoluteIndexed w s.x))
  | .brk | .tax | .inx => none
  | .staIndirectX _ | .staZeroPage _ | .staAbsolute _ => none
  | .staIndirectY _ | .staZeroPageX _ | .staAbsoluteY _ | .staAbsoluteX _ => none
  | .ldaIndirectX _ | .ldaZeroPage _ | .ldaImmediate _ | .ldaAbsolute _ => none
  | .ldaIndirectY _ | .ldaZeroPageX _ | .ldaAbsoluteY _ | .ldaAbsoluteX _ => none

/-- The 26 bytes that are opcodes under META_DEFAULT, in the order of 30_encoding.md R86. -/
def definedOpcodes : List Byte :=
  [0x00, 0x61, 0x65, 0x69, 0x6D, 0x71, 0x75, 0x79, 0x7D, 0x81, 0x85, 0x8D, 0x91] ++
  [0x95, 0x99, 0x9D, 0xA1, 0xA5, 0xA9, 0xAA, 0xAD, 0xB1, 0xB5, 0xB9, 0xBD, 0xE8]

/-! ### Addresses in natural numbers (20_memory.md R67 to R75, 30_encoding.md R82) -/

/-- The byte of memory at a number, taken modulo 65536. -/
def byteAt (s : State) (n : Nat) : Byte := s.read (BitVec.ofNat 16 n)

/-- The operand byte `nn` of the instruction at PC. -/
def operandByte (s : State) : Nat := (byteAt s (s.pc.toNat + 1)).toNat

/-- The operand word `hh:ll` of the instruction at PC, low byte first. -/
def operandWord (s : State) : Nat :=
  256 * (byteAt s (s.pc.toNat + 2)).toNat + (byteAt s (s.pc.toNat + 1)).toNat

/-- The little-endian word at `n` and `n + 1`, both within page zero. -/
def zeroPageWord (s : State) (n : Nat) : Nat :=
  256 * (byteAt s ((n + 1) % 256)).toNat + (byteAt s (n % 256)).toNat

/-! ### What stays -/

/-- Every byte of memory reads as before. -/
def SameMemory (s t : State) : Prop := ∀ addr : Addr, t.read addr = s.read addr

/-- The counter has moved on by `length` bytes, modulo 65536 (40_dispatch.md R114). -/
def Advanced (length : Nat) (s t : State) : Prop := t.pc.toNat = (s.pc.toNat + length) % 65536

/-! ### What an instruction has done -/

/-- Z and N are those of `v`, and the other six flags are kept (10_state.md R27). -/
def FlagsZN (v p q : Byte) : Prop :=
  Flag.get .zero q = decide (v.toNat = 0) ∧ Flag.get .negative q = decide (128 ≤ v.toNat) ∧
    ∀ g : Flag, g ≠ .zero → g ≠ .negative → Flag.get g q = Flag.get g p

/-- LDA's effect: A is `v`, Z and N are from it, and nothing else but PC has changed (41_load_store.md R130). -/
def LoadEffect (v : Byte) (s t : State) : Prop :=
  t.a = v ∧ FlagsZN v s.p t.p ∧ t.x = s.x ∧ t.y = s.y ∧ t.runState = s.runState ∧ SameMemory s t

/-- LDA has loaded `v` and gone on. -/
def Loaded (length : Nat) (v : Byte) (s t : State) : Prop := LoadEffect v s t ∧ Advanced length s t

/-- STA's effect: the byte at `addr` is A, and nothing else but PC has changed (R140). -/
def StoreEffect (addr : Addr) (s t : State) : Prop :=
  t.read addr = s.a ∧ (∀ other : Addr, other ≠ addr → t.read other = s.read other) ∧
    t.a = s.a ∧ t.x = s.x ∧ t.y = s.y ∧ t.p = s.p ∧ t.runState = s.runState

/-- STA has stored A at `addr` and gone on. -/
def Stored (length : Nat) (addr : Addr) (s t : State) : Prop := StoreEffect addr s t ∧ Advanced length s t

/-- Flag `g` of the status bytes `q₁` and `q₂`, made from `p₁` and `p₂`, depends on no flag that may differ between `p₁` and `p₂`: the two
agree, or each is what it was. -/
def FlagUnread (g : Flag) (p₁ q₁ p₂ q₂ : Byte) : Prop :=
  Flag.get g q₁ = Flag.get g q₂ ∨ (Flag.get g q₁ = Flag.get g p₁ ∧ Flag.get g q₂ = Flag.get g p₂)

/-- ADC's effect with the memory byte `op`: the two sums of 43_arithmetic.md R170, its four flags, and nothing else but PC changed. -/
def AddEffect (op : Byte) (s t : State) : Prop :=
  let first := op.toNat + (Flag.get .carry s.p).toNat
  let second := s.a.toNat + first % 256
  t.a.toNat = second % 256 ∧
    Flag.get .carry t.p = (decide (first > 255) || decide (second > 255)) ∧
    Flag.get .overflow t.p = ((t.a ^^^ op) &&& (t.a ^^^ s.a)).getLsbD 7 ∧
    Flag.get .zero t.p = decide (t.a.toNat = 0) ∧
    Flag.get .negative t.p = decide (128 ≤ t.a.toNat) ∧
    (∀ g : Flag, g ≠ .carry → g ≠ .overflow → g ≠ .zero → g ≠ .negative → Flag.get g t.p = Flag.get g s.p) ∧
    t.x = s.x ∧ t.y = s.y ∧ t.runState = s.runState ∧ SameMemory s t

/-- ADC has added the memory byte `op` and gone on. -/
def Added (length : Nat) (op : Byte) (s t : State) : Prop := AddEffect op s t ∧ Advanced length s t

/-- The effect of TAX and INX: X is the number `v`, Z and N are from it, and nothing else but PC has changed (42_register_ops.md R160,
R163). -/
def XEffect (v : Nat) (s t : State) : Prop :=
  t.x.toNat = v ∧ FlagsZN t.x s.p t.p ∧ t.a = s.a ∧ t.y = s.y ∧ t.runState = s.runState ∧ SameMemory s t

/-- X has been written with the number `v` and the machine has gone on. -/
def WroteX (length v : Nat) (s t : State) : Prop := XEffect v s t ∧ Advanced length s t

/-- The run has ended at a BRK: PC is the BRK's address plus 1, and nothing else is written (44_control.md R190). -/
def HaltedAtBrk (s t : State) : Prop :=
  t.runState = .halted ∧ Advanced 1 s t ∧ t.a = s.a ∧ t.x = s.x ∧ t.y = s.y ∧ t.p = s.p ∧ SameMemory s t

/-- A fatal condition has ended the run: the diagnostic is the kind, the byte at PC and PC, and no register and no byte of memory has
changed (60_exceptions.md R201, R205, R206). -/
def Raised (kind : FatalKind) (s t : State) : Prop :=
  t.runState = .faulted kind (s.read s.pc) s.pc ∧
    t.a = s.a ∧ t.x = s.x ∧ t.y = s.y ∧ t.p = s.p ∧ t.pc = s.pc ∧ SameMemory s t

/-- A fatal condition of this kind has ended the run with A, X, Y, P and memory unwritten; where it leaves PC and what its diagnostic
holds is `Raised`. -/
def Aborted (kind : FatalKind) (s t : State) : Prop :=
  (∃ opcode pc, t.runState = .faulted kind opcode pc) ∧
    t.a = s.a ∧ t.x = s.x ∧ t.y = s.y ∧ t.p = s.p ∧ SameMemory s t

/-! ### The invariant of a run -/

/-- Memory is canonical, and where the run state is Faulted its diagnostic is still true of the state: UnrecognizedOpcode, at PC, of
the byte that stands there and that has no record (R201, R202, R206). -/
def RunInvariant (s : State) : Prop :=
  Memory.wf s.mem = true ∧
    ∀ kind opcode pc, s.runState = .faulted kind opcode pc →
      kind = .unrecognizedOpcode ∧ pc = s.pc ∧ opcode = s.read s.pc ∧ opcodeForm opcode = none

end Sys2Proof.Machine
end

