-- ==== Sys2Proof/Certificates/Slice0/Obligations.lean ====
section
/-!
DEFINITION. The statements for the provers. Each docstring names the rule of spec/ it is about.
A statement about `exec` takes `s` as the state before the step, its PC the address of the opcode byte.
-/

open Sys2Proof Sys2Proof.Machine

/-! ### Encoding -/

/-- Words written out bit by bit from 30_encoding.md R86, one of each mnemonic and format, decode to what they stand for. Rests on the
spec's own decision D1 (log 11). -/
def Obligations.DecodesWrittenWords : Prop :=
  decode [0b00000000#8] = .ok (.brk, []) ∧
  decode [0b10101010#8] = .ok (.tax, []) ∧
  decode [0b11101000#8] = .ok (.inx, []) ∧
  decode [0b10101001#8, 0b10000000#8] = .ok (.ldaImmediate 0x80, []) ∧
  decode [0b10110001#8, 0b00010010#8] = .ok (.ldaIndirectY 0x12, []) ∧
  decode [0b10001101#8, 0b00110100#8, 0b00010010#8] = .ok (.staAbsolute 0x1234, []) ∧
  decode [0b01111001#8, 0b00000000#8, 0b00000011#8] = .ok (.adcAbsoluteY 0x0300, []) ∧
  decode [0b01100001#8, 0b00100000#8] = .ok (.adcIndirectX 0x20, [])

/-- Decoding the encoding of any instruction, whatever bytes follow, gives the instruction and those bytes (R80, R81, R82, R86). Rests on
the spec's own decision D1 (log 11). -/
def Obligations.DecodeEncodeRoundTrip : Prop :=
  ∀ (i : Instr) (rest : List Byte), decode (encode i ++ rest) = .ok (i, rest)

/-- What the decoder accepts is the encoding of what it answers, followed by what it hands back: each instruction has one encoding. Rests on
the spec's own decision D1 (log 11). -/
def Obligations.DecodedBytesAreTheEncoding : Prop :=
  ∀ (bytes rest : List Byte) (i : Instr), decode bytes = .ok (i, rest) → bytes = encode i ++ rest

/-- No byte after the opcode byte changes the mnemonic or the length (30_encoding.md R85). An inference of the spec's own, R85 (log 11). -/
def Obligations.OpcodeByteFixesLength : Prop :=
  ∀ (op : Byte) (rest₁ rest₂ left₁ left₂ : List Byte) (i j : Instr),
    decode (op :: rest₁) = .ok (i, left₁) → decode (op :: rest₂) = .ok (j, left₂) →
      i.length = j.length ∧ handlerOfInstr i = handlerOfInstr j

/-! ### The step -/

/-- While a run is in progress, a step is `exec` of the instruction the bytes at PC decode to (40_dispatch.md R111). `exec` moves PC past
the opcode byte and the operand bytes itself, so `step` adds nothing around it. Rests on the spec's own decision D6 (log 11). Log 9. -/
def Obligations.StepRunsDecodedInstruction : Prop :=
  ∀ (s : State) (i : Instr) (rest : List Byte),
    s.runState = .running → decode [s.read s.pc, s.read (s.pc + 1), s.read (s.pc + 2)] = .ok (i, rest) →
      i.wf = true → step s = exec i s

/-- While no run is in progress, a step leaves the state as it is (60_exceptions.md R217; the model's choice, log 4). Rests on the spec's
own decision D14 (log 11). Log 4. -/
def Obligations.StepWithoutRunKeepsState : Prop :=
  ∀ s : State, s.runState ≠ .running → step s = .next s

/-- The decode-and-execute step is the spec's own dispatcher (40_dispatch.md R111) under META_DEFAULT and the default HANDLERS, whose
handlers read their operands from memory at PC. Rests on the spec's own decisions D1, D2, D6, D8 and D23 (log 11). Logs 3, 4 and 9. -/
def Obligations.StepRefinesDispatcher : Prop :=
  ∀ s : State, step s = dispatch Config.default s

/-- Every step answers a next state: nothing faults on a memory access or an alignment (60_exceptions.md R218), and a fatal condition is a
next state whose run state is Faulted (R205). Logs 4 and 8. -/
def Obligations.StepAlwaysAnswersNext : Prop :=
  ∀ s : State, ∃ t : State, step s = .next t ∧
    (t.runState = .running ∨ t.runState = .halted ∨ t.runState = s.runState ∨
      ∃ opcode pc, t.runState = .faulted .unrecognizedOpcode opcode pc)

/-- Every step keeps the invariant: canonical memory, and a diagnostic that is true of the state (R201, R202, R206). Rests on the spec's own
decisions D2 and D8 (log 11). Logs 2 and 8. -/
def Obligations.StepKeepsInvariant : Prop :=
  ∀ s t : State, RunInvariant s → step s = .next t → RunInvariant t

/-- The invariant holds at reset. Rests on the spec's own decision D14 (log 11). Logs 1 and 2. -/
def Obligations.ResetHasInvariant : Prop := RunInvariant State.reset

/-- The order of the checks in one step, for any well-formed META and any HANDLERS (40_dispatch.md R117). Rests on the spec's own decisions
D8 and D14 (log 11). -/
def Obligations.DispatchChecksInOrder : Prop :=
  ∀ (c : Config) (s : State), c.wf = true → s.runState = .running →
    (recordOf c (s.read s.pc) = none → ∃ t, dispatch c s = .next t ∧ Raised .unrecognizedOpcode s t) ∧
    (∀ r, recordOf c (s.read s.pc) = some r → handlerOf c (s.read s.pc) = none →
      ∃ t, dispatch c s = .next t ∧ Raised .notImplemented s t) ∧
    (∀ r h, recordOf c (s.read s.pc) = some r → handlerOf c (s.read s.pc) = some h →
      r.mode = .noneAddressing → (h = .lda ∨ h = .sta ∨ h = .adc) →
        ∃ t, dispatch c s = .next t ∧ Raised .unsupportedAddressingMode s t) ∧
    (∀ r h, recordOf c (s.read s.pc) = some r → handlerOf c (s.read s.pc) = some h →
      ¬ (r.mode = .noneAddressing ∧ (h = .lda ∨ h = .sta ∨ h = .adc)) →
        ∃ t, dispatch c s = .next t ∧ t.runState = if h = .brk then .halted else .running)

/-- A step that raises changes no architectural state, and PC stays at the faulting opcode byte (60_exceptions.md R206), for any META and
HANDLERS. Rests on the spec's own decision D8 (log 11). -/
def Obligations.RaisingStepChangesNothing : Prop :=
  ∀ (c : Config) (s t : State) (kind : FatalKind) (opcode : Byte) (pc : Addr),
    s.runState = .running → dispatch c s = .next t → t.runState = .faulted kind opcode pc → Raised kind s t

/-- After a fatal condition with nothing changed, running again raises the same condition again (40_dispatch.md R119, 60_exceptions.md
R209). Rests on the spec's own decisions D8, D14 and D25 (log 11). Log 7. -/
def Obligations.FaultRecursWhenRunAgain : Prop :=
  ∀ (c : Config) (s t : State) (kind : FatalKind) (opcode : Byte) (pc : Addr) (fuel : Nat),
    s.runState = .running → dispatch c s = .next t → t.runState = .faulted kind opcode pc →
      dispatch c (startRun t) = .next t ∧ run c (fuel + 1) t = .next t

/-- Step 5 (40_dispatch.md R114): the operand bytes are skipped exactly when the counter is what was recorded; so a completed non-BRK step
ends with PC = (a + length) mod 65536, with the length META gives the byte, whatever the mode. Rests on the spec's own decisions D6 and D24
(log 11). -/
def Obligations.CompletedStepAdvancesByLength : Prop :=
  (∀ (before : Addr) (length : Nat) (s : State), 1 ≤ length →
    (s.pc = before → (skipOperands before length s).pc.toNat = (s.pc.toNat + (length - 1)) % 65536) ∧
    (s.pc ≠ before → (skipOperands before length s).pc = s.pc)) ∧
  (∀ (c : Config) (s t : State) (r : MetaRecord),
    s.runState = .running → recordOf c (s.read s.pc) = some r → dispatch c s = .next t → t.runState = .running →
      Advanced r.length s t)

/-- The 230 bytes with no record raise UnrecognizedOpcode under META_DEFAULT (30_encoding.md R88), and under any META a byte with no record
does (60_exceptions.md R202). Rests on the spec's own decisions D1, D2 and D8 (log 11). -/
def Obligations.UnrecognizedByteRaises : Prop :=
  ((List.range 256).filter fun n => !definedOpcodes.contains (BitVec.ofNat 8 n)).length = 230 ∧
  (∀ s : State, s.runState = .running → s.read s.pc ∉ definedOpcodes →
    ∃ t, step s = .next t ∧ Raised .unrecognizedOpcode s t) ∧
  (∀ (c : Config) (s : State), c.wf = true → s.runState = .running → recordOf c (s.read s.pc) = none →
    ∃ t, dispatch c s = .next t ∧ Raised .unrecognizedOpcode s t)

/-- UnsupportedAddressingMode (60_exceptions.md R204): raised exactly when LDA, STA or ADC is dispatched with a placeholder mode, so never
by TAX, INX or BRK, and never under META_DEFAULT. -/
def Obligations.UnsupportedModeRaisedByResolversOnly : Prop :=
  (∀ (c : Config) (s : State), c.wf = true → s.runState = .running →
    ((∃ t opcode pc, dispatch c s = .next t ∧ t.runState = .faulted .unsupportedAddressingMode opcode pc) ↔
      ∃ r h, recordOf c (s.read s.pc) = some r ∧ handlerOf c (s.read s.pc) = some h ∧
        r.mode = .noneAddressing ∧ (h = .lda ∨ h = .sta ∨ h = .adc))) ∧
  (∀ (s t : State) (opcode : Byte) (pc : Addr), s.runState = .running → dispatch Config.default s = .next t →
    t.runState ≠ .faulted .unsupportedAddressingMode opcode pc)

/-- For every META that agrees with META_DEFAULT on its 26 bytes (30_encoding.md R90): those bytes run as under the default, and every other
byte is fatal with no state change, of one of two kinds. Rests on the spec's own decisions D2 and D8 (log 11). -/
def Obligations.LargerMetaRunsTheSameOpcodes : Prop :=
  ∀ (c : Config) (s : State), c.wf = true → c.handlers = handlersDefault →
    (∀ op ∈ definedOpcodes, recordOf c op = recordOf Config.default op) → s.runState = .running →
      (s.read s.pc ∈ definedOpcodes → dispatch c s = step s) ∧
      (s.read s.pc ∉ definedOpcodes →
        ∃ t kind, dispatch c s = .next t ∧ (kind = .unrecognizedOpcode ∨ kind = .notImplemented) ∧ Raised kind s t)

/-- Every instruction completes, in every state and for every operand: BRK halts, every other moves PC on by its length and keeps the run
state (40_dispatch.md R114, 44_control.md R190). Rests on the spec's own decisions D6, D14 and D24 (log 11). -/
def Obligations.EveryInstructionCompletes : Prop :=
  ∀ (i : Instr) (s : State), ∃ t, exec i s = .next t ∧
    if handlerOfInstr i = .brk then HaltedAtBrk s t else Advanced i.length s t ∧ t.runState = s.runState

/-! ### Whole-machine rules -/

/-- Carry and Overflow are written only by ADC, which writes both every time; no instruction reads Z, N, V, I, D, B or B2 (10_state.md R28).
A step that changes Carry or Overflow has run an ADC. Every ADC has its operand byte, and sets both from it, A and Carry. Of two states that
differ in those seven flags alone, a step makes two states that differ in the status byte alone, and there each flag agrees or each state
has kept its own. -/
def Obligations.CarryOverflowOnlyByAdcOthersUnread : Prop :=
  (∀ s t : State, step s = .next t →
    (Flag.get .carry t.p ≠ Flag.get .carry s.p ∨ Flag.get .overflow t.p ≠ Flag.get .overflow s.p) →
      s.runState = .running ∧ ∃ i, s.fetch = some i ∧ handlerOfInstr i = .adc) ∧
  (∀ (i : Instr) (s : State), handlerOfInstr i = .adc → (adcOperand i s).isSome = true) ∧
  (∀ (i : Instr) (s : State) (op : Byte), adcOperand i s = some op → ∃ t, exec i s = .next t ∧ AddEffect op s t) ∧
  (∀ s t s' t' : State, Flag.get .carry s.p = Flag.get .carry t.p → { s with p := t.p } = t →
    step s = .next s' → step t = .next t' →
      { s' with p := t'.p } = t' ∧ Flag.get .carry s'.p = Flag.get .carry t'.p ∧
        ∀ g : Flag, FlagUnread g s.p s'.p t.p t'.p)

/-- No step writes Y, nor the flags I, D, B and B2 (10_state.md R24, R25). Rests on the spec's own decisions D5 and D9 (log 11). -/
def Obligations.StepKeepsYAndStorageFlags : Prop :=
  ∀ s t : State, step s = .next t →
    t.y = s.y ∧
    Flag.get .interruptDisable t.p = Flag.get .interruptDisable s.p ∧
    Flag.get .decimalMode t.p = Flag.get .decimalMode s.p ∧
    Flag.get .break1 t.p = Flag.get .break1 s.p ∧
    Flag.get .break2 t.p = Flag.get .break2 s.p

/-- Only STA writes memory, and only the one byte at its effective address, with A (20_memory.md R58). -/
def Obligations.OnlyStaWritesMemory : Prop :=
  ∀ (s t : State) (addr : Addr), Memory.wf s.mem = true → step s = .next t → t.read addr ≠ s.read addr →
    s.runState = .running ∧ t.read addr = s.a ∧ ∃ i, s.fetch = some i ∧ storeAddress i s = some addr

/-! ### LDA -/

/-- Every form of LDA completes with A, Z and N from the byte at its effective address and nothing else written (R130 to R138). Rests on the
spec's own decisions D6 and D7 (log 11). -/
def Obligations.LdaFormsComplete : Prop :=
  ∀ (s : State) (b : Byte) (w : Addr),
    (∃ t, exec (.ldaImmediate b) s = .next t ∧ Loaded 2 b s t) ∧
    (∃ t, exec (.ldaZeroPage b) s = .next t ∧ Loaded 2 (s.read (zeroPage b)) s t) ∧
    (∃ t, exec (.ldaZeroPageX b) s = .next t ∧ Loaded 2 (s.read (zeroPageIndexed b s.x)) s t) ∧
    (∃ t, exec (.ldaAbsolute w) s = .next t ∧ Loaded 3 (s.read w) s t) ∧
    (∃ t, exec (.ldaAbsoluteX w) s = .next t ∧ Loaded 3 (s.read (absoluteIndexed w s.x)) s t) ∧
    (∃ t, exec (.ldaAbsoluteY w) s = .next t ∧ Loaded 3 (s.read (absoluteIndexed w s.y)) s t) ∧
    (∃ t, exec (.ldaIndirectX b) s = .next t ∧ Loaded 2 (s.read (indirectX b s)) s t) ∧
    (∃ t, exec (.ldaIndirectY b) s = .next t ∧ Loaded 2 (s.read (indirectY b s)) s t)

/-- A step at each LDA opcode byte, with the address in natural numbers as the per-opcode rule gives it (R131 to R138). Rests on the spec's
own decisions D1, D6 and D7 (log 11). -/
def Obligations.LdaOpcodesStep : Prop :=
  ∀ s : State, s.runState = .running →
    (s.read s.pc = 0xA9 → ∃ t, step s = .next t ∧ Loaded 2 (byteAt s (s.pc.toNat + 1)) s t) ∧
    (s.read s.pc = 0xA5 → ∃ t, step s = .next t ∧ Loaded 2 (byteAt s (operandByte s)) s t) ∧
    (s.read s.pc = 0xB5 → ∃ t, step s = .next t ∧ Loaded 2 (byteAt s ((operandByte s + s.x.toNat) % 256)) s t) ∧
    (s.read s.pc = 0xAD → ∃ t, step s = .next t ∧ Loaded 3 (byteAt s (operandWord s)) s t) ∧
    (s.read s.pc = 0xBD → ∃ t, step s = .next t ∧ Loaded 3 (byteAt s ((operandWord s + s.x.toNat) % 65536)) s t) ∧
    (s.read s.pc = 0xB9 → ∃ t, step s = .next t ∧ Loaded 3 (byteAt s ((operandWord s + s.y.toNat) % 65536)) s t) ∧
    (s.read s.pc = 0xA1 → ∃ t, step s = .next t ∧ Loaded 2 (byteAt s (zeroPageWord s (operandByte s + s.x.toNat))) s t) ∧
    (s.read s.pc = 0xB1 → ∃ t, step s = .next t ∧
      Loaded 2 (byteAt s ((zeroPageWord s (operandByte s) + s.y.toNat) % 65536)) s t)

/-- LDA with any mode and length a META may give it (R130): the byte at the address the resolver gives; UnsupportedAddressingMode, before
anything is written, where it gives none. -/
def Obligations.LdaHandlerInAnyMode : Prop :=
  ∀ (c : Config) (s : State) (r : MetaRecord), c.wf = true → s.runState = .running →
    recordOf c (s.read s.pc) = some r → handlerOf c (s.read s.pc) = some .lda →
      ∃ t, dispatch c s = .next t ∧
        match resolve r.mode { s with pc := s.pc + 1 } with
        | some addr => LoadEffect (s.read addr) s t
        | none => r.mode = .noneAddressing ∧ Aborted .unsupportedAddressingMode s t

/-! ### STA -/

/-- Every form of STA completes with A at its effective address, no other byte of memory, no register and no flag written (R140 to R147).
Rests on the spec's own decisions D6 and D7 (log 11). -/
def Obligations.StaFormsComplete : Prop :=
  ∀ (s : State) (b : Byte) (w : Addr), Memory.wf s.mem = true →
    (∃ t, exec (.staZeroPage b) s = .next t ∧ Stored 2 (zeroPage b) s t) ∧
    (∃ t, exec (.staZeroPageX b) s = .next t ∧ Stored 2 (zeroPageIndexed b s.x) s t) ∧
    (∃ t, exec (.staAbsolute w) s = .next t ∧ Stored 3 w s t) ∧
    (∃ t, exec (.staAbsoluteX w) s = .next t ∧ Stored 3 (absoluteIndexed w s.x) s t) ∧
    (∃ t, exec (.staAbsoluteY w) s = .next t ∧ Stored 3 (absoluteIndexed w s.y) s t) ∧
    (∃ t, exec (.staIndirectX b) s = .next t ∧ Stored 2 (indirectX b s) s t) ∧
    (∃ t, exec (.staIndirectY b) s = .next t ∧ Stored 2 (indirectY b s) s t)

/-- A step at each STA opcode byte, with the address in natural numbers as the per-opcode rule gives it (R141 to R147). Rests on the spec's
own decisions D1, D6 and D7 (log 11). -/
def Obligations.StaOpcodesStep : Prop :=
  ∀ s : State, s.runState = .running → Memory.wf s.mem = true →
    (s.read s.pc = 0x85 → ∃ t, step s = .next t ∧ Stored 2 (BitVec.ofNat 16 (operandByte s)) s t) ∧
    (s.read s.pc = 0x95 → ∃ t, step s = .next t ∧ Stored 2 (BitVec.ofNat 16 ((operandByte s + s.x.toNat) % 256)) s t) ∧
    (s.read s.pc = 0x8D → ∃ t, step s = .next t ∧ Stored 3 (BitVec.ofNat 16 (operandWord s)) s t) ∧
    (s.read s.pc = 0x9D → ∃ t, step s = .next t ∧ Stored 3 (BitVec.ofNat 16 ((operandWord s + s.x.toNat) % 65536)) s t) ∧
    (s.read s.pc = 0x99 → ∃ t, step s = .next t ∧ Stored 3 (BitVec.ofNat 16 ((operandWord s + s.y.toNat) % 65536)) s t) ∧
    (s.read s.pc = 0x81 → ∃ t, step s = .next t ∧
      Stored 2 (BitVec.ofNat 16 (zeroPageWord s (operandByte s + s.x.toNat))) s t) ∧
    (s.read s.pc = 0x91 → ∃ t, step s = .next t ∧
      Stored 2 (BitVec.ofNat 16 ((zeroPageWord s (operandByte s) + s.y.toNat) % 65536)) s t)

/-- STA with any mode and length a META may give it (R140): A at the address the resolver gives, its own operand byte in Immediate mode;
UnsupportedAddressingMode, before the write, where it gives none. -/
def Obligations.StaHandlerInAnyMode : Prop :=
  ∀ (c : Config) (s : State) (r : MetaRecord), c.wf = true → s.runState = .running → Memory.wf s.mem = true →
    recordOf c (s.read s.pc) = some r → handlerOf c (s.read s.pc) = some .sta →
      ∃ t, dispatch c s = .next t ∧
        match resolve r.mode { s with pc := s.pc + 1 } with
        | some addr => StoreEffect addr s t
        | none => r.mode = .noneAddressing ∧ Aborted .unsupportedAddressingMode s t

/-- A store is seen by the very next fetch, and does not change the length of the STA that made it (20_memory.md R62,
70_reset_and_hazards.md R251). An inference of the spec's own, R62 and R251 (log 11). -/
def Obligations.StoreIsSeenByNextFetch : Prop :=
  ∀ (s : State) (i : Instr) (addr : Addr), s.runState = .running → Memory.wf s.mem = true →
    s.fetch = some i → storeAddress i s = some addr →
      ∃ t, step s = .next t ∧ Advanced i.length s t ∧ t.read addr = s.a ∧
        (t.pc = addr → t.fetchBytes.head? = some s.a)

/-! ### ADC -/

/-- Every form of ADC completes with the sum of R170 of A, the byte at its effective address and Carry (R170, R174 to R181). Rests on the
spec's own decisions D6 and D7 (log 11). -/
def Obligations.AdcFormsComplete : Prop :=
  ∀ (s : State) (b : Byte) (w : Addr),
    (∃ t, exec (.adcImmediate b) s = .next t ∧ Added 2 b s t) ∧
    (∃ t, exec (.adcZeroPage b) s = .next t ∧ Added 2 (s.read (zeroPage b)) s t) ∧
    (∃ t, exec (.adcZeroPageX b) s = .next t ∧ Added 2 (s.read (zeroPageIndexed b s.x)) s t) ∧
    (∃ t, exec (.adcAbsolute w) s = .next t ∧ Added 3 (s.read w) s t) ∧
    (∃ t, exec (.adcAbsoluteX w) s = .next t ∧ Added 3 (s.read (absoluteIndexed w s.x)) s t) ∧
    (∃ t, exec (.adcAbsoluteY w) s = .next t ∧ Added 3 (s.read (absoluteIndexed w s.y)) s t) ∧
    (∃ t, exec (.adcIndirectX b) s = .next t ∧ Added 2 (s.read (indirectX b s)) s t) ∧
    (∃ t, exec (.adcIndirectY b) s = .next t ∧ Added 2 (s.read (indirectY b s)) s t)

/-- A step at each ADC opcode byte, with the address in natural numbers as the per-opcode rule gives it (R174 to R181). Rests on the spec's
own decisions D1, D6 and D7 (log 11). -/
def Obligations.AdcOpcodesStep : Prop :=
  ∀ s : State, s.runState = .running →
    (s.read s.pc = 0x69 → ∃ t, step s = .next t ∧ Added 2 (byteAt s (s.pc.toNat + 1)) s t) ∧
    (s.read s.pc = 0x65 → ∃ t, step s = .next t ∧ Added 2 (byteAt s (operandByte s)) s t) ∧
    (s.read s.pc = 0x75 → ∃ t, step s = .next t ∧ Added 2 (byteAt s ((operandByte s + s.x.toNat) % 256)) s t) ∧
    (s.read s.pc = 0x6D → ∃ t, step s = .next t ∧ Added 3 (byteAt s (operandWord s)) s t) ∧
    (s.read s.pc = 0x7D → ∃ t, step s = .next t ∧ Added 3 (byteAt s ((operandWord s + s.x.toNat) % 65536)) s t) ∧
    (s.read s.pc = 0x79 → ∃ t, step s = .next t ∧ Added 3 (byteAt s ((operandWord s + s.y.toNat) % 65536)) s t) ∧
    (s.read s.pc = 0x61 → ∃ t, step s = .next t ∧ Added 2 (byteAt s (zeroPageWord s (operandByte s + s.x.toNat))) s t) ∧
    (s.read s.pc = 0x71 → ∃ t, step s = .next t ∧
      Added 2 (byteAt s ((zeroPageWord s (operandByte s) + s.y.toNat) % 65536)) s t)

/-- ADC with any mode and length a META may give it (R170); UnsupportedAddressingMode, before anything is written, where the resolver gives
no address. -/
def Obligations.AdcHandlerInAnyMode : Prop :=
  ∀ (c : Config) (s : State) (r : MetaRecord), c.wf = true → s.runState = .running →
    recordOf c (s.read s.pc) = some r → handlerOf c (s.read s.pc) = some .adc →
      ∃ t, dispatch c s = .next t ∧
        match resolve r.mode { s with pc := s.pc + 1 } with
        | some addr => AddEffect (s.read addr) s t
        | none => r.mode = .noneAddressing ∧ Aborted .unsupportedAddressingMode s t

/-- The two-step carry is the carry of the 9-bit sum, its two carries are never both 1, and Overflow says that the signed sum does not fit
(43_arithmetic.md R171). An inference of the spec's own, R171 (log 11). -/
def Obligations.AdcIsNineBitSum : Prop :=
  ∀ (a0 op : Byte) (cin : Bool),
    let sum := a0.toNat + op.toNat + cin.toNat
    let signed : Int := a0.toInt + op.toInt + cin.toNat
    (adcSum a0 op cin).result.toNat = sum % 256 ∧
    (adcSum a0 op cin).carry = decide (sum > 255) ∧
    ¬ (op.toNat + cin.toNat > 255 ∧ a0.toNat + (op.toNat + cin.toNat) % 256 > 255) ∧
    ((adcSum a0 op cin).overflow = true ↔ a0.msb = op.msb ∧ (adcSum a0 op cin).result.msb ≠ a0.msb) ∧
    ((adcSum a0 op cin).overflow = true ↔ signed < -128 ∨ 127 < signed)

/-- ADC neither reads nor writes the decimal flag (43_arithmetic.md R172): writing it before or after an ADC comes to the same. Rests on the
spec's own decision D11 (log 11). -/
def Obligations.AdcIgnoresDecimalMode : Prop :=
  ∀ (i : Instr) (s : State) (d : Bool), handlerOfInstr i = .adc →
    ∃ t, exec i s = .next t ∧
      exec i { s with p := Flag.put .decimalMode d s.p } = .next { t with p := Flag.put .decimalMode d t.p } ∧
      Flag.get .decimalMode t.p = Flag.get .decimalMode s.p

/-- The corner cases of ADC (43_arithmetic.md R173): A, operand and Carry before; A, C, V, Z and N after; in every state with that A and
Carry. An inference of the spec's own, R173 (log 11). -/
def Obligations.AdcCornerTable : Prop :=
  ∀ (s : State) (row : Byte × Byte × Bool × Byte × Bool × Bool × Bool × Bool),
    row ∈ [(0x7F, 0x10, false, 0x8F, false, true, false, true),
           (0xFF, 0x01, false, 0x00, true, false, true, false),
           (0x00, 0x00, false, 0x00, false, false, true, false),
           (0x00, 0x00, true, 0x01, false, false, false, false),
           (0x80, 0x80, false, 0x00, true, true, true, false),
           (0x50, 0x50, false, 0xA0, false, true, false, true),
           (0xD0, 0x90, false, 0x60, true, true, false, false),
           (0x00, 0x7F, true, 0x80, false, true, false, true),
           (0x80, 0xFF, true, 0x80, true, false, false, true),
           (0xFF, 0xFF, true, 0xFF, true, false, false, true),
           (0x01, 0xFF, false, 0x00, true, false, true, false),
           (0x3C, 0x00, true, 0x3D, false, false, false, false)] →
      s.a = row.1 → Flag.get .carry s.p = row.2.2.1 →
        ∃ t, exec (.adcImmediate row.2.1) s = .next t ∧ t.a = row.2.2.2.1 ∧
          Flag.get .carry t.p = row.2.2.2.2.1 ∧ Flag.get .overflow t.p = row.2.2.2.2.2.1 ∧
          Flag.get .zero t.p = row.2.2.2.2.2.2.1 ∧ Flag.get .negative t.p = row.2.2.2.2.2.2.2

/-! ### TAX, INX and BRK -/

/-- TAX copies A to X and INX adds 1 to X modulo 256, each with Z and N from the new X and no other flag (42_register_ops.md R160, R163).
Rests on the spec's own decision D6 (log 11). -/
def Obligations.TaxInxComplete : Prop :=
  ∀ s : State,
    (∃ t, exec .tax s = .next t ∧ WroteX 1 s.a.toNat s t) ∧
    (∃ t, exec .inx s = .next t ∧ WroteX 1 ((s.x.toNat + 1) % 256) s t)

/-- A step at the bytes 0xAA and 0xE8 (R161, R164). Rests on the spec's own decisions D1 and D6 (log 11). -/
def Obligations.TaxInxOpcodesStep : Prop :=
  ∀ s : State, s.runState = .running →
    (s.read s.pc = 0xAA → ∃ t, step s = .next t ∧ WroteX 1 s.a.toNat s t) ∧
    (s.read s.pc = 0xE8 → ∃ t, step s = .next t ∧ WroteX 1 ((s.x.toNat + 1) % 256) s t)

/-- TAX and INX with any mode a META may give them: the mode is not used, and a placeholder raises nothing (R160, R163). -/
def Obligations.TaxInxIgnoreTheMode : Prop :=
  ∀ (c : Config) (s : State) (r : MetaRecord), c.wf = true → s.runState = .running →
    recordOf c (s.read s.pc) = some r →
      (handlerOf c (s.read s.pc) = some .tax → ∃ t, dispatch c s = .next t ∧ XEffect s.a.toNat s t) ∧
      (handlerOf c (s.read s.pc) = some .inx →
        ∃ t, dispatch c s = .next t ∧ XEffect ((s.x.toNat + 1) % 256) s t)

/-- BRK ends the run with PC at its own address plus 1 and writes nothing else (44_control.md R190). Rests on the spec's own decisions D6
and D14 (log 11). -/
def Obligations.BrkHalts : Prop :=
  ∀ s : State, ∃ t, exec .brk s = .next t ∧ HaltedAtBrk s t

/-- A step at the byte 0x00 halts (44_control.md R191), and a step after it changes nothing. Rests on the spec's own decisions D1, D6 and
D14 (log 11). Log 4. -/
def Obligations.BrkOpcodeStep : Prop :=
  ∀ s : State, s.runState = .running → s.read s.pc = 0x00 →
    ∃ t, step s = .next t ∧ HaltedAtBrk s t ∧ step t = .next t

/-- BRK with any record a META may give it: neither its mode nor its length has an effect (R190). Rests on the spec's own decisions D6 and
D14 (log 11). -/
def Obligations.BrkIgnoresItsRecord : Prop :=
  ∀ (c : Config) (s : State) (r : MetaRecord), c.wf = true → s.runState = .running →
    recordOf c (s.read s.pc) = some r → handlerOf c (s.read s.pc) = some .brk →
      ∃ t, dispatch c s = .next t ∧ HaltedAtBrk s t

/-! ### Frames -/

/-- What LDA, ADC, TAX, INX and BRK leave: all of memory and Y; every register but A (LDA, ADC) or X (TAX, INX); every flag but Z and N
(LDA, TAX, INX) or C, Z, V and N (ADC); the run state, but for BRK. -/
def Obligations.NonStoringFrame : Prop :=
  ∀ (i : Instr) (s t : State), handlerOfInstr i ≠ .sta → exec i s = .next t →
    SameMemory s t ∧ t.y = s.y ∧
    (handlerOfInstr i ≠ .lda → handlerOfInstr i ≠ .adc → t.a = s.a) ∧
    (handlerOfInstr i ≠ .tax → handlerOfInstr i ≠ .inx → t.x = s.x) ∧
    (handlerOfInstr i = .brk → t.p = s.p) ∧
    (∀ g : Flag, g ≠ .zero → g ≠ .negative → (handlerOfInstr i = .adc → g ≠ .carry ∧ g ≠ .overflow) →
      Flag.get g t.p = Flag.get g s.p) ∧
    (handlerOfInstr i ≠ .brk → t.runState = s.runState)

/-- What STA leaves: every register, every flag, the run state, and every byte of memory but the one at its effective address. -/
def Obligations.StoringFrame : Prop :=
  ∀ (i : Instr) (s t : State), handlerOfInstr i = .sta → exec i s = .next t →
    t.a = s.a ∧ t.x = s.x ∧ t.y = s.y ∧ t.p = s.p ∧ t.runState = s.runState ∧
    (∃ addr, storeAddress i s = some addr) ∧
    ∀ addr, storeAddress i s = some addr → ∀ other : Addr, other ≠ addr → t.read other = s.read other

/-! ### Flags, memory and addresses -/

/-- `ZN(v)` (10_state.md R27), whatever the flags beforehand; it writes nothing but P. -/
def Obligations.ZnWritesZeroAndNegative : Prop :=
  ∀ (s : State) (v : Byte),
    (Flag.get .zero (s.zn v).p = true ↔ v = 0x00) ∧
    (Flag.get .negative (s.zn v).p = v.getLsbD 7) ∧
    (∀ g : Flag, g ≠ .zero → g ≠ .negative → Flag.get g (s.zn v).p = Flag.get g s.p) ∧
    { s.zn v with p := s.p } = s

/-- A byte written reads back and no other byte changes, and a write of one byte touches no register (20_memory.md R51, R52). -/
def Obligations.ByteWriteReadsBack : Prop :=
  ∀ (s : State) (addr : Addr) (v : Byte), Memory.wf s.mem = true →
    (s.write addr v).read addr = v ∧
    (∀ other : Addr, other ≠ addr → (s.write addr v).read other = s.read other) ∧
    { s.write addr v with mem := s.mem } = s

/-- The 16-bit helpers are little-endian, with the second byte at (addr + 1) mod 65536, 0x0000 after 0xFFFF (20_memory.md R53, R54, R56).
Rests on the spec's own decision D7 (log 11). -/
def Obligations.WordAccessIsLittleEndian : Prop :=
  ∀ (s : State) (addr w : Addr),
    (s.read16 addr).toNat = 256 * (byteAt s ((addr.toNat + 1) % 65536)).toNat + (byteAt s addr.toNat).toNat ∧
    (Memory.wf s.mem = true →
      (s.write16 addr w).read16 addr = w ∧
      ((s.write16 addr w).read addr).toNat = w.toNat % 256 ∧
      (byteAt (s.write16 addr w) ((addr.toNat + 1) % 65536)).toNat = w.toNat / 256 ∧
      ∀ other : Addr, other ≠ addr → other ≠ addr + 1 → (s.write16 addr w).read other = s.read other)

/-- The canonical form is unique: two canonical memories that read alike at every address are the same data (20_memory.md R50, R59). Log 2.
-/
def Obligations.CanonicalMemoryIsUnique : Prop :=
  ∀ m n : Memory, Memory.wf m = true → Memory.wf n = true →
    (∀ addr : Addr, Memory.get m addr.toNat = Memory.get n addr.toNat) → m = n

/-- The effective address of every mode, in natural numbers (20_memory.md R67 to R75), and none for a placeholder. `s.pc` is the address of
the first operand byte, and the word there is `MemRead(PC, 2)`, as the rules write it. -/
def Obligations.ResolverAddresses : Prop :=
  ∀ s : State,
    let nn := (byteAt s s.pc.toNat).toNat
    let word := (s.read16 s.pc).toNat
    resolve .immediate s = some s.pc ∧
    resolve .zeroPage s = some (BitVec.ofNat 16 nn) ∧
    resolve .zeroPageX s = some (BitVec.ofNat 16 ((nn + s.x.toNat) % 256)) ∧
    resolve .zeroPageY s = some (BitVec.ofNat 16 ((nn + s.y.toNat) % 256)) ∧
    resolve .absolute s = some (BitVec.ofNat 16 word) ∧
    resolve .absoluteX s = some (BitVec.ofNat 16 ((word + s.x.toNat) % 65536)) ∧
    resolve .absoluteY s = some (BitVec.ofNat 16 ((word + s.y.toNat) % 65536)) ∧
    resolve .indirectX s = some (BitVec.ofNat 16 (zeroPageWord s (nn + s.x.toNat))) ∧
    resolve .indirectY s = some (BitVec.ofNat 16 ((zeroPageWord s nn + s.y.toNat) % 65536)) ∧
    resolve .noneAddressing s = none

/-! ### Reset and the host's operations -/

/-- `reset()` (70_reset_and_hazards.md R230): A, X and P zero, Y kept unless RESET_CLEARS_Y, PC the word at RESET_VECTOR, Idle, no byte of
memory written; and it may not be called during a run. Rests on the spec's own decisions D4, D7, D9 and D14 (log 11). Log 6. -/
def Obligations.ResetWritesRegisters : Prop :=
  ∀ (c : Config) (s : State),
    (s.runState ≠ .running → ∃ t, reset c s = .next t ∧ t.a = 0x00 ∧ t.x = 0x00 ∧ t.p = 0x00 ∧
      t.y = (if c.resetClearsY then 0x00 else s.y) ∧
      t.pc.toNat = 256 * (byteAt s (c.resetVector.toNat + 1)).toNat + (byteAt s c.resetVector.toNat).toNat ∧
      t.runState = .idle ∧ SameMemory s t) ∧
    (s.runState = .running → reset c s = .refused .runInProgress)

/-- `State.reset` is what `reset()` makes of the state at creation. Its Y, its PC and its memory rest on the model's choice of that state
(logs 1 and 2). Rests on the spec's own decisions D4, D9 and D10 (log 11). Logs 1 and 2. -/
def Obligations.ResetStateIsResetOfCreation : Prop :=
  reset Config.default State.creation = .next State.reset

/-- `load` (R235): the image from LOAD_ADDR on, then LOAD_ADDR in the reset vector, low byte first; no other byte, no register and no run
state changes. Rests on the spec's own decisions D3, D4, D7 and D15 (log 11). Log 6. -/
def Obligations.LoadPlacesImageAndVector : Prop :=
  ∀ (c : Config) (image : List Byte) (s : State), s.runState ≠ .running → Memory.wf s.mem = true →
    image.length ≤ 65536 - c.loadAddr.toNat →
      ∃ t, load c image s = .next t ∧ { t with mem := s.mem } = s ∧
        ∀ addr : Addr, t.read addr =
          if addr = c.resetVector + 1 then BitVec.ofNat 8 (c.loadAddr.toNat / 256)
          else if addr = c.resetVector then BitVec.ofNat 8 (c.loadAddr.toNat % 256)
          else if c.loadAddr.toNat ≤ addr.toNat ∧ addr.toNat < c.loadAddr.toNat + image.length then
            image.getD (addr.toNat - c.loadAddr.toNat) 0x00
          else s.read addr

/-- `load` refuses an image that would run past 0xFFFF; one that covers the vector slot loses those two bytes to the vector; an empty one
writes the vector alone (R236). Rests on the spec's own decisions D3, D4, D7 and D15 (log 11). -/
def Obligations.LoadRefusesOnlyLongImages : Prop :=
  ∀ (c : Config) (image : List Byte) (s : State), s.runState ≠ .running →
    (65536 - c.loadAddr.toNat < image.length → load c image s = .refused .imageTooLong) ∧
    (image.length ≤ 65536 - c.loadAddr.toNat → Memory.wf s.mem = true →
      ∃ t, load c image s = .next t ∧ t.read16 c.resetVector = c.loadAddr) ∧
    (∃ t, load c [] s = .next t ∧
      ∀ addr : Addr, addr ≠ c.resetVector → addr ≠ c.resetVector + 1 → t.read addr = s.read addr)

/-- `loadAndRun` is load, reset, run in that order (R237): the run starts at LOAD_ADDR with A, X and P cleared and, unless RESET_CLEARS_Y,
the host's Y. Rests on the spec's own decisions D3, D4, D9 and D15 (log 11). Log 7. -/
def Obligations.LoadAndRunComposes : Prop :=
  ∀ (c : Config) (fuel : Nat) (image : List Byte) (s : State), s.runState ≠ .running → Memory.wf s.mem = true →
    image.length ≤ 65536 - c.loadAddr.toNat →
      ∃ t u, load c image s = .next t ∧ reset c t = .next u ∧ loadAndRun c fuel image s = run c fuel u ∧
        u.pc = c.loadAddr ∧ u.a = 0x00 ∧ u.x = 0x00 ∧ u.p = 0x00 ∧
        u.y = (if c.resetClearsY then 0x00 else s.y) ∧ SameMemory t u

/-- A run that ends, ends Halted or Faulted (40_dispatch.md R118, 70_reset_and_hazards.md R238). Rests on the spec's own decisions D14 and
D25 (log 11). Log 7. -/
def Obligations.RunEndsHaltedOrFaulted : Prop :=
  ∀ (c : Config) (fuel : Nat) (s t : State), run c fuel s = .next t →
    t.runState = .halted ∨ ∃ kind opcode pc, t.runState = .faulted kind opcode pc

/-- `run()` under the defaults is the step repeated while the run state is Running (40_dispatch.md R110): the host's own k-fold step, which
has either left Running or used its bound up. Rests on the spec's own decisions D14 and D25 (log 11). Logs 4 and 7. -/
def Obligations.RunIsRepeatedSteps : Prop :=
  ∀ (fuel : Nat) (s : State), s.runState ≠ .running →
    ∃ t : State, Host.Core.run core fuel (startRun s) = .next t ∧
      run Config.default fuel s = if t.runState = .running then .fault .fuelExhausted else .next t

/-- The spec's own example of a run that never ends (40_dispatch.md R118): memory holding 0xE8 (INX) at every address uses up every bound.
Rests on the spec's own decisions D1, D6 and D25 (log 11). Log 7. -/
def Obligations.InxEverywhereNeverEnds : Prop :=
  ∀ (fuel : Nat) (s : State), s.runState ≠ .running → (∀ addr : Addr, s.read addr = 0xE8) →
    run Config.default fuel s = .fault .fuelExhausted

/-- What the host writes through an accessor reads back, and nothing else changes, the run state included (70_reset_and_hazards.md R240,
R241). Rests on the spec's own decision D22 (log 11). -/
def Obligations.AccessorsReadBack : Prop :=
  ∀ s : State, s.runState ≠ .running →
    (∀ (r : Register) (v : Byte), ∃ t, hostWriteRegister r v s = .next t ∧ hostReadRegister r t = .ok v ∧
      (∀ q : Register, q ≠ r → hostReadRegister q t = hostReadRegister q s) ∧
      t.pc = s.pc ∧ t.runState = s.runState ∧ SameMemory s t) ∧
    (∀ v : Addr, ∃ t, hostWritePc v s = .next t ∧ hostReadPc t = .ok v ∧
      (∀ q : Register, hostReadRegister q t = hostReadRegister q s) ∧ t.runState = s.runState ∧ SameMemory s t) ∧
    (Memory.wf s.mem = true → ∀ (addr : Addr) (v : Byte), ∃ t, hostWriteMemory addr v s = .next t ∧
      hostReadMemory addr t = .ok v ∧
      (∀ other : Addr, other ≠ addr → hostReadMemory other t = hostReadMemory other s) ∧
      (∀ q : Register, hostReadRegister q t = hostReadRegister q s) ∧ t.pc = s.pc ∧ t.runState = s.runState)

/-- Every bit of P is storage (10_state.md R26): any byte the host writes to P reads back unchanged, and reset writes 0x00. Rests on the
spec's own decisions D5 and D22 (log 11). -/
def Obligations.StatusByteIsAllStorage : Prop :=
  ∀ (c : Config) (s : State) (v : Byte), s.runState ≠ .running →
    ∃ t u, hostWriteRegister .p v s = .next t ∧ hostReadRegister .p t = .ok v ∧
      (∀ g : Flag, Flag.get g t.p = v.getLsbD g.bit) ∧
      reset c t = .next u ∧ hostReadRegister .p u = .ok 0x00

/-- During a run every operation of the host is refused (20_memory.md R63, 70_reset_and_hazards.md R240, R252). Rests on the spec's own
decisions D14 and D22 (log 11). Log 6. -/
def Obligations.HostOperationsRefusedDuringRun : Prop :=
  ∀ (c : Config) (s : State) (fuel : Nat) (image : List Byte) (r : Register) (v : Byte) (addr : Addr),
    s.runState = .running →
      reset c s = .refused .runInProgress ∧ load c image s = .refused .runInProgress ∧
      run c fuel s = .refused .runInProgress ∧ loadAndRun c fuel image s = .refused .runInProgress ∧
      hostReadRegister r s = .error .runInProgress ∧ hostWriteRegister r v s = .refused .runInProgress ∧
      hostReadPc s = .error .runInProgress ∧ hostWritePc addr s = .refused .runInProgress ∧
      hostReadMemory addr s = .error .runInProgress ∧ hostWriteMemory addr v s = .refused .runInProgress
end

