-- ==== Sys2Proof/Laws/Decode.lean ====
section
/-!
SUPPORT. The byte-order helpers of the decoder and the encoder undo each other (20_memory.md R55).
-/

namespace Sys2Proof

theorem wordOf_toNat (lo hi : Byte) : (wordOf lo hi).toNat = 256 * hi.toNat + lo.toNat := by
  have := lo.isLt
  simp only [wordOf, BitVec.toNat_append]
  rw [← Nat.shiftLeft_add_eq_or_of_lt this, Nat.shiftLeft_eq]
  omega

theorem lowByte_toNat (w : Addr) : (lowByte w).toNat = w.toNat % 256 := by
  simp [lowByte, BitVec.extractLsb'_toNat]

theorem highByte_toNat (w : Addr) : (highByte w).toNat = w.toNat / 256 := by
  have := w.isLt
  simp only [highByte, BitVec.extractLsb'_toNat, Nat.shiftRight_eq_div_pow]
  omega

@[simp] theorem wordOf_lowByte_highByte (w : Addr) : wordOf (lowByte w) (highByte w) = w := by
  apply BitVec.eq_of_toNat_eq
  rw [wordOf_toNat, lowByte_toNat, highByte_toNat]
  omega

@[simp] theorem lowByte_wordOf (lo hi : Byte) : lowByte (wordOf lo hi) = lo := by
  have := lo.isLt
  apply BitVec.eq_of_toNat_eq
  rw [lowByte_toNat, wordOf_toNat]
  omega

@[simp] theorem highByte_wordOf (lo hi : Byte) : highByte (wordOf lo hi) = hi := by
  have := lo.isLt
  apply BitVec.eq_of_toNat_eq
  rw [highByte_toNat, wordOf_toNat]
  omega

end Sys2Proof
end

