-- ==== Sys2Proof/Laws/State.lean ====
section
/-!
SUPPORT. One lemma for each field of the state under each update, so that no later proof unfolds a record update.
-/

namespace Sys2Proof.Machine

variable (s : State)

@[simp] theorem State.setA_a (v : Byte) : (s.setA v).a = v := rfl
@[simp] theorem State.setA_x (v : Byte) : (s.setA v).x = s.x := rfl
@[simp] theorem State.setA_y (v : Byte) : (s.setA v).y = s.y := rfl
@[simp] theorem State.setA_p (v : Byte) : (s.setA v).p = s.p := rfl
@[simp] theorem State.setA_pc (v : Byte) : (s.setA v).pc = s.pc := rfl
@[simp] theorem State.setA_runState (v : Byte) : (s.setA v).runState = s.runState := rfl
@[simp] theorem State.setA_mem (v : Byte) : (s.setA v).mem = s.mem := rfl

@[simp] theorem State.setX_a (v : Byte) : (s.setX v).a = s.a := rfl
@[simp] theorem State.setX_x (v : Byte) : (s.setX v).x = v := rfl
@[simp] theorem State.setX_y (v : Byte) : (s.setX v).y = s.y := rfl
@[simp] theorem State.setX_p (v : Byte) : (s.setX v).p = s.p := rfl
@[simp] theorem State.setX_pc (v : Byte) : (s.setX v).pc = s.pc := rfl
@[simp] theorem State.setX_runState (v : Byte) : (s.setX v).runState = s.runState := rfl
@[simp] theorem State.setX_mem (v : Byte) : (s.setX v).mem = s.mem := rfl

@[simp] theorem State.setY_a (v : Byte) : (s.setY v).a = s.a := rfl
@[simp] theorem State.setY_x (v : Byte) : (s.setY v).x = s.x := rfl
@[simp] theorem State.setY_y (v : Byte) : (s.setY v).y = v := rfl
@[simp] theorem State.setY_p (v : Byte) : (s.setY v).p = s.p := rfl
@[simp] theorem State.setY_pc (v : Byte) : (s.setY v).pc = s.pc := rfl
@[simp] theorem State.setY_runState (v : Byte) : (s.setY v).runState = s.runState := rfl
@[simp] theorem State.setY_mem (v : Byte) : (s.setY v).mem = s.mem := rfl

@[simp] theorem State.setP_a (v : Byte) : (s.setP v).a = s.a := rfl
@[simp] theorem State.setP_x (v : Byte) : (s.setP v).x = s.x := rfl
@[simp] theorem State.setP_y (v : Byte) : (s.setP v).y = s.y := rfl
@[simp] theorem State.setP_p (v : Byte) : (s.setP v).p = v := rfl
@[simp] theorem State.setP_pc (v : Byte) : (s.setP v).pc = s.pc := rfl
@[simp] theorem State.setP_runState (v : Byte) : (s.setP v).runState = s.runState := rfl
@[simp] theorem State.setP_mem (v : Byte) : (s.setP v).mem = s.mem := rfl

@[simp] theorem State.setPc_a (v : Addr) : (s.setPc v).a = s.a := rfl
@[simp] theorem State.setPc_x (v : Addr) : (s.setPc v).x = s.x := rfl
@[simp] theorem State.setPc_y (v : Addr) : (s.setPc v).y = s.y := rfl
@[simp] theorem State.setPc_p (v : Addr) : (s.setPc v).p = s.p := rfl
@[simp] theorem State.setPc_pc (v : Addr) : (s.setPc v).pc = v := rfl
@[simp] theorem State.setPc_runState (v : Addr) : (s.setPc v).runState = s.runState := rfl
@[simp] theorem State.setPc_mem (v : Addr) : (s.setPc v).mem = s.mem := rfl

@[simp] theorem State.setRunState_a (v : RunState) : (s.setRunState v).a = s.a := rfl
@[simp] theorem State.setRunState_x (v : RunState) : (s.setRunState v).x = s.x := rfl
@[simp] theorem State.setRunState_y (v : RunState) : (s.setRunState v).y = s.y := rfl
@[simp] theorem State.setRunState_p (v : RunState) : (s.setRunState v).p = s.p := rfl
@[simp] theorem State.setRunState_pc (v : RunState) : (s.setRunState v).pc = s.pc := rfl
@[simp] theorem State.setRunState_runState (v : RunState) : (s.setRunState v).runState = v := rfl
@[simp] theorem State.setRunState_mem (v : RunState) : (s.setRunState v).mem = s.mem := rfl

@[simp] theorem State.write_a (addr : Addr) (v : Byte) : (s.write addr v).a = s.a := rfl
@[simp] theorem State.write_x (addr : Addr) (v : Byte) : (s.write addr v).x = s.x := rfl
@[simp] theorem State.write_y (addr : Addr) (v : Byte) : (s.write addr v).y = s.y := rfl
@[simp] theorem State.write_p (addr : Addr) (v : Byte) : (s.write addr v).p = s.p := rfl
@[simp] theorem State.write_pc (addr : Addr) (v : Byte) : (s.write addr v).pc = s.pc := rfl
@[simp] theorem State.write_runState (addr : Addr) (v : Byte) : (s.write addr v).runState = s.runState := rfl
@[simp] theorem State.write_mem (addr : Addr) (v : Byte) :
    (s.write addr v).mem = Memory.put s.mem addr.toNat v := rfl

@[simp] theorem State.fetchAdvance_a : s.fetchAdvance.a = s.a := rfl
@[simp] theorem State.fetchAdvance_x : s.fetchAdvance.x = s.x := rfl
@[simp] theorem State.fetchAdvance_y : s.fetchAdvance.y = s.y := rfl
@[simp] theorem State.fetchAdvance_p : s.fetchAdvance.p = s.p := rfl
@[simp] theorem State.fetchAdvance_pc : s.fetchAdvance.pc = s.pc + 1 := rfl
@[simp] theorem State.fetchAdvance_runState : s.fetchAdvance.runState = s.runState := rfl
@[simp] theorem State.fetchAdvance_mem : s.fetchAdvance.mem = s.mem := rfl

@[simp] theorem raise_a (kind : FatalKind) (opcode : Byte) : (raise kind opcode s).a = s.a := rfl
@[simp] theorem raise_x (kind : FatalKind) (opcode : Byte) : (raise kind opcode s).x = s.x := rfl
@[simp] theorem raise_y (kind : FatalKind) (opcode : Byte) : (raise kind opcode s).y = s.y := rfl
@[simp] theorem raise_p (kind : FatalKind) (opcode : Byte) : (raise kind opcode s).p = s.p := rfl
@[simp] theorem raise_pc (kind : FatalKind) (opcode : Byte) : (raise kind opcode s).pc = s.pc := rfl
@[simp] theorem raise_runState (kind : FatalKind) (opcode : Byte) : (raise kind opcode s).runState = .faulted kind opcode s.pc := rfl
@[simp] theorem raise_mem (kind : FatalKind) (opcode : Byte) : (raise kind opcode s).mem = s.mem := rfl

@[simp] theorem startRun_a : (startRun s).a = s.a := rfl
@[simp] theorem startRun_x : (startRun s).x = s.x := rfl
@[simp] theorem startRun_y : (startRun s).y = s.y := rfl
@[simp] theorem startRun_p : (startRun s).p = s.p := rfl
@[simp] theorem startRun_pc : (startRun s).pc = s.pc := rfl
@[simp] theorem startRun_runState : (startRun s).runState = .running := rfl
@[simp] theorem startRun_mem : (startRun s).mem = s.mem := rfl

@[simp] theorem halt_a : (halt s).a = s.a := rfl
@[simp] theorem halt_x : (halt s).x = s.x := rfl
@[simp] theorem halt_y : (halt s).y = s.y := rfl
@[simp] theorem halt_p : (halt s).p = s.p := rfl
@[simp] theorem halt_pc : (halt s).pc = s.pc := rfl
@[simp] theorem halt_runState : (halt s).runState = .halted := rfl
@[simp] theorem halt_mem : (halt s).mem = s.mem := rfl

@[simp] theorem State.setA_read (v : Byte) (addr : Addr) : (s.setA v).read addr = s.read addr := rfl
@[simp] theorem State.setX_read (v : Byte) (addr : Addr) : (s.setX v).read addr = s.read addr := rfl
@[simp] theorem State.setY_read (v : Byte) (addr : Addr) : (s.setY v).read addr = s.read addr := rfl
@[simp] theorem State.setP_read (v : Byte) (addr : Addr) : (s.setP v).read addr = s.read addr := rfl
@[simp] theorem State.setPc_read (v : Addr) (addr : Addr) : (s.setPc v).read addr = s.read addr := rfl
@[simp] theorem State.setRunState_read (v : RunState) (addr : Addr) : (s.setRunState v).read addr = s.read addr := rfl
@[simp] theorem State.fetchAdvance_read (addr : Addr) : s.fetchAdvance.read addr = s.read addr := rfl
@[simp] theorem startRun_read (addr : Addr) : (startRun s).read addr = s.read addr := rfl
@[simp] theorem halt_read (addr : Addr) : (halt s).read addr = s.read addr := rfl
@[simp] theorem raise_read (kind : FatalKind) (opcode : Byte) (addr : Addr) :
    (raise kind opcode s).read addr = s.read addr := rfl

end Sys2Proof.Machine
end

