-- ==== Sys2Proof/Laws/Flags.lean ====
section
/-!
SUPPORT. What the flag operations do, one lemma each: writing a flag, ZN (10_state.md R27) and ADC's status byte (43_arithmetic.md R170).
-/

namespace Sys2Proof.Machine

/-- Writing one flag writes that flag and no other. -/
theorem Flag.get_put (f g : Flag) (v : Bool) (p : Byte) :
    Flag.get g (Flag.put f v p) = if g = f then v else Flag.get g p := by
  cases f <;> cases g <;> cases v <;> simp [Flag.get, Flag.put, Flag.bit]

/-- ZN writes Zero and Negative and keeps the other six flags (R27). -/
theorem znByte_get (v p : Byte) (g : Flag) :
    Flag.get g (znByte v p) =
      if g = .negative then v.getLsbD 7 else if g = .zero then decide (v = 0x00) else Flag.get g p := by
  simp only [znByte, Flag.get_put]

/-- ADC's status byte: C, V, Z and N from the sum, the other four flags kept (R170). -/
theorem adcStatus_get (sum : AdcSum) (p : Byte) (g : Flag) :
    Flag.get g (adcStatus sum p) =
      if g = .negative then sum.result.getLsbD 7
      else if g = .zero then decide (sum.result = 0x00)
      else if g = .overflow then sum.overflow
      else if g = .carry then sum.carry
      else Flag.get g p := by
  simp only [adcStatus, znByte_get, Flag.get_put]

/-- Two status bytes with the same flags are the same byte: the eight flags are all of P (R25). -/
theorem status_ext {p q : Byte} (h : ∀ g : Flag, Flag.get g p = Flag.get g q) : p = q := by
  apply BitVec.eq_of_getLsbD_eq
  intro i lt
  have : i = 0 ∨ i = 1 ∨ i = 2 ∨ i = 3 ∨ i = 4 ∨ i = 5 ∨ i = 6 ∨ i = 7 := by omega
  obtain e | e | e | e | e | e | e | e := this <;> subst e
  · exact h .carry
  · exact h .zero
  · exact h .interruptDisable
  · exact h .decimalMode
  · exact h .break1
  · exact h .break2
  · exact h .overflow
  · exact h .negative

end Sys2Proof.Machine
end

