-- ==== Sys2Proof/Laws/Memory.lean ====
section
/-!
SUPPORT. What the memory operations do: reading after a write (20_memory.md R51, R52), and that every write keeps the canonical form.
-/

namespace Sys2Proof.Machine

/-! ### Canonical form -/

theorem Memory.wfFrom_mono {lo hi : Nat} {m : Memory} (h : Memory.wfFrom hi m = true) (le : lo ≤ hi) :
    Memory.wfFrom lo m = true := by
  cases m with
  | nil => rfl
  | cons c m =>
    simp only [Memory.wfFrom, Bool.and_eq_true, decide_eq_true_eq] at h ⊢
    exact ⟨⟨⟨le_trans le h.1.1.1, h.1.1.2⟩, h.1.2⟩, h.2⟩

/-- Below its first key, a canonical memory lists nothing. -/
theorem Memory.get_below {lo : Nat} {m : Memory} (h : Memory.wfFrom lo m = true) {k : Nat} (lt : k < lo) :
    Memory.get m k = Memory.unwritten := by
  induction m generalizing lo with
  | nil => rfl
  | cons c m ih =>
    simp only [Memory.wfFrom, Bool.and_eq_true, decide_eq_true_eq] at h
    have ne : c.1 ≠ k := by omega
    simp only [Memory.get, if_neg ne]
    exact ih h.2 (by omega)

theorem Memory.cell_wfFrom {lo k : Nat} {v : Byte} {m : Memory} (le : lo ≤ k) (lt : k < 65536)
    (h : Memory.wfFrom (k + 1) m = true) : Memory.wfFrom lo (Memory.cell k v m) = true := by
  unfold Memory.cell
  split
  · exact Memory.wfFrom_mono h (by omega)
  · next ne => simp [Memory.wfFrom, le, lt, ne, h]

/-- A write keeps the canonical form. -/
theorem Memory.put_wfFrom {lo k : Nat} {v : Byte} {m : Memory} (h : Memory.wfFrom lo m = true) (le : lo ≤ k)
    (lt : k < 65536) : Memory.wfFrom lo (Memory.put m k v) = true := by
  induction m generalizing lo with
  | nil => exact Memory.cell_wfFrom le lt rfl
  | cons c m ih =>
    have hc := h
    simp only [Memory.wfFrom, Bool.and_eq_true, decide_eq_true_eq] at hc
    unfold Memory.put
    split
    · next below =>
      refine Memory.cell_wfFrom le lt ?_
      simp only [Memory.wfFrom, Bool.and_eq_true, decide_eq_true_eq]
      exact ⟨⟨⟨below, hc.1.1.2⟩, hc.1.2⟩, hc.2⟩
    · split
      · next eq => exact Memory.cell_wfFrom le lt (eq ▸ hc.2)
      · next ge ne =>
        simp only [Memory.wfFrom, Bool.and_eq_true, decide_eq_true_eq]
        exact ⟨hc.1, ih hc.2 (by omega)⟩

theorem State.write_wf {s : State} (h : Memory.wf s.mem = true) (addr : Addr) (v : Byte) :
    Memory.wf (s.write addr v).mem = true :=
  Memory.put_wfFrom h (Nat.zero_le _) addr.isLt

theorem State.write16_wf {s : State} (h : Memory.wf s.mem = true) (addr w : Addr) :
    Memory.wf (s.write16 addr w).mem = true :=
  State.write_wf (State.write_wf h _ _) _ _

theorem State.placeBytes_wf {s : State} (h : Memory.wf s.mem = true) (addr : Addr) (bytes : List Byte) :
    Memory.wf (s.placeBytes addr bytes).mem = true := by
  induction bytes generalizing s addr with
  | nil => exact h
  | cons v vs ih => exact ih (State.write_wf h addr v) (addr + 1)

theorem State.reset_wf : Memory.wf State.reset.mem = true := rfl

/-! ### Reading after a write -/

theorem Memory.get_cell (k j : Nat) (v : Byte) (m : Memory) (h : Memory.get m k = Memory.unwritten) :
    Memory.get (Memory.cell k v m) j = if j = k then v else Memory.get m j := by
  unfold Memory.cell
  split
  · next eq =>
    split
    · next e => rw [e, h, eq]
    · rfl
  · simp only [Memory.get, eq_comm]

theorem Memory.get_put {m : Memory} {lo : Nat} (h : Memory.wfFrom lo m = true) (k j : Nat) (v : Byte) :
    Memory.get (Memory.put m k v) j = if j = k then v else Memory.get m j := by
  induction m generalizing lo with
  | nil => exact Memory.get_cell k j v [] rfl
  | cons c m ih =>
    have hc := h
    simp only [Memory.wfFrom, Bool.and_eq_true, decide_eq_true_eq] at hc
    unfold Memory.put
    split
    · next below =>
      refine Memory.get_cell k j v _ ?_
      have at_k : Memory.wfFrom (k + 1) (c :: m) = true := by
        simp only [Memory.wfFrom, Bool.and_eq_true, decide_eq_true_eq]
        exact ⟨⟨⟨below, hc.1.1.2⟩, hc.1.2⟩, hc.2⟩
      exact Memory.get_below at_k (Nat.lt_succ_self k)
    · split
      · next eq =>
        rw [Memory.get_cell k j v m (Memory.get_below hc.2 (by omega))]
        by_cases e : j = k
        · rw [if_pos e, if_pos e]
        · rw [if_neg e, if_neg e]
          simp only [Memory.get]
          rw [if_neg (by omega)]
      · next ge ne =>
        simp only [Memory.get]
        split
        · next e => rw [if_neg (by omega)]
        · exact ih hc.2

/-- `MemWrite` sets one byte and changes no other (R52). -/
theorem State.write_read {s : State} (h : Memory.wf s.mem = true) (addr at_ : Addr) (v : Byte) :
    (s.write addr v).read at_ = if at_ = addr then v else s.read at_ := by
  simp only [State.read, State.write_mem]
  rw [Memory.get_put h]
  simp only [BitVec.toNat_eq]

theorem State.write_read_same {s : State} (h : Memory.wf s.mem = true) (addr : Addr) (v : Byte) :
    (s.write addr v).read addr = v := by
  rw [State.write_read h, if_pos rfl]

/-- A write leaves every other key alone, in a list of any form. -/
theorem Memory.get_put_other (m : Memory) {k j : Nat} (ne : j ≠ k) (v : Byte) :
    Memory.get (Memory.put m k v) j = Memory.get m j := by
  have cell (n : Memory) : Memory.get (Memory.cell k v n) j = Memory.get n j := by
    unfold Memory.cell
    split
    · rfl
    · simp only [Memory.get, if_neg (Ne.symm ne)]
  induction m with
  | nil => exact cell []
  | cons c m ih =>
    unfold Memory.put
    split
    · exact cell _
    · split
      · next eq =>
        rw [cell]
        simp only [Memory.get]
        rw [if_neg (by omega)]
      · simp only [Memory.get, ih]

theorem State.write_read_other (s : State) {addr at_ : Addr} (ne : at_ ≠ addr) (v : Byte) :
    (s.write addr v).read at_ = s.read at_ :=
  Memory.get_put_other s.mem (by rwa [ne_eq, ← BitVec.toNat_eq]) v

/-! ### Placing bytes leaves the registers -/

theorem State.placeBytes_registers (s : State) (addr : Addr) (bytes : List Byte) :
    (s.placeBytes addr bytes) = { s with mem := (s.placeBytes addr bytes).mem } := by
  induction bytes generalizing s addr with
  | nil => rfl
  | cons v vs ih =>
    have := ih (s.write addr v) (addr + 1)
    simp only [State.placeBytes]
    rw [this]
    rfl

end Sys2Proof.Machine
end

