-- ==== Sys2Proof/Laws/Operands.lean ====
section
/-!
SUPPORT. What an effective address depends on: X, Y and memory, never PC, A or P (20_memory.md R66).
-/

namespace Sys2Proof.Machine

@[simp] theorem pointerWord_fetchAdvance (s : State) (ptr : Byte) : pointerWord s.fetchAdvance ptr = pointerWord s ptr := rfl

@[simp] theorem indirectX_fetchAdvance (s : State) (b : Byte) : indirectX b s.fetchAdvance = indirectX b s := rfl

@[simp] theorem indirectY_fetchAdvance (s : State) (b : Byte) : indirectY b s.fetchAdvance = indirectY b s := rfl

/-- The resolver raises for the placeholder mode alone (R76). -/
theorem resolve_eq_none_iff (mode : AddrMode) (s : State) : resolve mode s = none ↔ mode = .noneAddressing := by
  cases mode <;> simp [resolve]

theorem zeroPage_toNat (b : Byte) : (zeroPage b).toNat = b.toNat := by
  simp only [zeroPage, BitVec.toNat_setWidth]
  omega

end Sys2Proof.Machine
end

