-- ==== Sys2Proof/Laws/Ops.lean ====
section
/-!
SUPPORT. One lemma for each shared operation of a step, saying once what it does (40_dispatch.md R111 to R116).
-/

namespace Sys2Proof.Machine

/-- Step 5 where the counter is what was recorded (R114). -/
theorem skipOperands_of_eq {before : Addr} {length : Nat} {s : State} (h : s.pc = before) :
    skipOperands before length s = s.setPc (before + BitVec.ofNat 16 (length - 1)) := by
  subst h
  simp only [skipOperands, if_true]

/-- Step 5 where the handler has moved the counter (R115). -/
theorem skipOperands_of_ne {before : Addr} {length : Nat} {s : State} (h : s.pc ≠ before) :
    skipOperands before length s = s := by
  simp only [skipOperands, h, if_false]

/-- A handler that leaves the counter where step 1 put it ends, after step 5, with PC = a + length modulo 65536 (R114). -/
theorem withHandler_of_pc {length : Nat} {handler : State → State} {s : State}
    (kept : (handler s.fetchAdvance).pc = s.pc + 1) (pos : 1 ≤ length) :
    withHandler length handler s = (handler s.fetchAdvance).setPc (s.pc + BitVec.ofNat 16 length) := by
  have sum : s.pc + 1 + BitVec.ofNat 16 (length - 1) = s.pc + BitVec.ofNat 16 length := by
    obtain ⟨n, rfl⟩ : ∃ n, length = n + 1 := ⟨length - 1, by omega⟩
    rw [Nat.add_sub_cancel, BitVec.add_assoc, Nat.add_comm n 1, BitVec.ofNat_add]
    rfl
  simp only [withHandler, skipOperands, State.fetchAdvance_pc, kept, if_true, sum]

@[simp] theorem State.zn_pc (s : State) (v : Byte) : (s.zn v).pc = s.pc := rfl
@[simp] theorem ldaWith_pc (v : Byte) (h : State) : (ldaWith v h).pc = h.pc := rfl
@[simp] theorem staTo_pc (addr : Addr) (h : State) : (staTo addr h).pc = h.pc := rfl
@[simp] theorem adcWith_pc (op : Byte) (h : State) : (adcWith op h).pc = h.pc := rfl
@[simp] theorem taxHandler_pc (h : State) : (taxHandler h).pc = h.pc := rfl
@[simp] theorem inxHandler_pc (h : State) : (inxHandler h).pc = h.pc := rfl

/-- What LDA's shared operation writes: A and P (R130). -/
theorem ldaWith_eq (v : Byte) (h : State) : ldaWith v h = { h with a := v, p := znByte v h.p } := rfl

/-- What STA's shared operation writes: one byte of memory (R140). -/
theorem staTo_eq (addr : Addr) (h : State) : staTo addr h = { h with mem := Memory.put h.mem addr.toNat h.a } := rfl

/-- What ADC's shared operation writes: A and P (R170). -/
theorem adcWith_eq (op : Byte) (h : State) :
    adcWith op h =
      { h with
        a := (adcSum h.a op (Flag.get .carry h.p)).result
        p := adcStatus (adcSum h.a op (Flag.get .carry h.p)) h.p } := rfl

/-- What a handler invoked with a mode can do: raise before it writes anything, halt (BRK alone) or complete with PC, Y and the run
state as they were (R116). -/
theorem invoke_cases (handler : Handler) (mode : AddrMode) (h : State) :
    (mode = .noneAddressing ∧ (handler = .lda ∨ handler = .sta ∨ handler = .adc) ∧
      invoke handler mode h = .raised .unsupportedAddressingMode) ∨
    (handler = .brk ∧ invoke handler mode h = .halted (halt h)) ∨
    (handler ≠ .brk ∧ ∃ t, invoke handler mode h = .completed t ∧ t.pc = h.pc ∧ t.y = h.y ∧ t.runState = h.runState) := by
  cases handler <;> cases mode <;> simp [invoke, withAddress, resolve, ldaWith, staTo, adcWith, taxHandler, inxHandler, State.zn]

end Sys2Proof.Machine
end

