-- ==== Sys2Proof/Laws/Dispatcher.lean ====
section
/-!
SUPPORT. What one step can do, said once (40_dispatch.md R111, R117): under any configuration, and under the defaults.
-/

namespace Sys2Proof.Machine

variable {c : Config} {s : State}

/-- Step 2: no record. -/
theorem dispatchStep_of_no_record (h : recordOf c (s.read s.pc) = none) :
    dispatchStep c s = raise .unrecognizedOpcode (s.read s.pc) s := by
  simp only [dispatchStep, h]

/-- Step 4: a record and no handler. -/
theorem dispatchStep_of_no_handler {r : MetaRecord} (h : recordOf c (s.read s.pc) = some r)
    (none_ : handlerOf c (s.read s.pc) = none) : dispatchStep c s = raise .notImplemented (s.read s.pc) s := by
  simp only [dispatchStep, h, none_]

/-- Steps 4 and 5: the handler runs on the state after step 1. -/
theorem dispatchStep_of_handler {r : MetaRecord} {handler : Handler} (h : recordOf c (s.read s.pc) = some r)
    (some_ : handlerOf c (s.read s.pc) = some handler) :
    dispatchStep c s =
      match invoke handler r.mode s.fetchAdvance with
      | .completed t => skipOperands s.fetchAdvance.pc r.length t
      | .halted t => t
      | .raised kind => raise kind (s.read s.pc) s := by
  simp only [dispatchStep, h, some_] <;> rfl

/-- Everything a dispatcher step can do: raise, halt, or complete a handler and skip its operand bytes. -/
theorem dispatchStep_cases (c : Config) (s : State) :
    (∃ kind, dispatchStep c s = raise kind (s.read s.pc) s) ∨
    (handlerOf c (s.read s.pc) = some .brk ∧ dispatchStep c s = halt s.fetchAdvance) ∨
    (∃ r handler t, recordOf c (s.read s.pc) = some r ∧ handlerOf c (s.read s.pc) = some handler ∧ handler ≠ .brk ∧
      invoke handler r.mode s.fetchAdvance = .completed t ∧ t.pc = s.pc + 1 ∧ t.y = s.y ∧ t.runState = s.runState ∧
      dispatchStep c s = t.setPc (s.pc + 1 + BitVec.ofNat 16 (r.length - 1))) := by
  cases hr : recordOf c (s.read s.pc) with
  | none => exact .inl ⟨_, dispatchStep_of_no_record hr⟩
  | some r =>
    cases hh : handlerOf c (s.read s.pc) with
    | none => exact .inl ⟨_, dispatchStep_of_no_handler hr hh⟩
    | some handler =>
      have eq := dispatchStep_of_handler hr hh
      rcases invoke_cases handler r.mode s.fetchAdvance with ⟨-, -, e⟩ | ⟨rfl, e⟩ | ⟨ne, t, e, pc, y, rs⟩
      · exact .inl ⟨_, by rw [eq, e]⟩
      · exact .inr (.inl ⟨rfl, by rw [eq, e]⟩)
      · refine .inr (.inr ⟨r, handler, t, rfl, rfl, ne, e, pc, y, rs, ?_⟩)
        rw [eq, e]
        exact skipOperands_of_eq pc

/-- A step during a run, under a well-formed configuration. -/
theorem dispatch_of_running (wf : c.wf = true) (running : s.runState = .running) :
    dispatch c s = .next (dispatchStep c s) := by
  simp only [dispatch, wf, if_true, running]

/-- What a dispatcher step that answers a next state during a run has done. -/
theorem eq_dispatchStep_of_next {t : State} (running : s.runState = .running) (h : dispatch c s = .next t) :
    c.wf = true ∧ t = dispatchStep c s := by
  by_cases wf : c.wf = true
  · rw [dispatch_of_running wf running] at h
    exact ⟨wf, (Host.Outcome.next.inj h).symm⟩
  · simp [dispatch, wf] at h

/-- A well-formed META gives every byte a length of 1, 2 or 3 (00_scope.md R9). -/
theorem record_length {op : Byte} {r : MetaRecord} (wf : c.wf = true) (h : recordOf c op = some r) :
    1 ≤ r.length ∧ r.length ≤ 3 := by
  obtain ⟨l₁, l₂, e, -⟩ := List.lookup_eq_some_iff.1 h
  have mem : (op, r) ∈ c.metadata := by simp [e]
  simpa [MetaRecord.wf, lengthOk] using List.all_eq_true.1 wf _ mem

/-- A step during a run, where the opcode byte has a record. -/
theorem step_of_fetch {i : Instr} (running : s.runState = .running) (h : s.fetch = some i) : step s = exec i s := by
  simp only [step, running, h]

/-- A step during a run, where the opcode byte has no record. -/
theorem step_of_no_fetch (running : s.runState = .running) (h : s.fetch = none) :
    step s = .next (raise .unrecognizedOpcode (s.read s.pc) s) := by
  simp only [step, running, h]

/-- Three bytes are enough for any instruction: a fetch gives none only where the opcode byte has no record. -/
theorem fetch_eq_none_iff (s : State) : s.fetch = none ↔ opcodeForm (s.read s.pc) = none := by
  simp only [State.fetch, State.fetchBytes, decode]
  cases opcodeForm (s.read s.pc) with
  | none => simp
  | some f => cases f <;> simp [Form.assemble]

end Sys2Proof.Machine
end

