-- ==== Sys2Proof/Laws/Meanings.lean ====
section
/-!
SUPPORT. What each shared handler does between the two halves of a step, in the words of Safety.lean: one lemma for each, for any
length and any way of reaching the operand.
-/

namespace Sys2Proof.Machine

theorem advanced_setPc (length : Nat) (s t : State) : Advanced length s (t.setPc (s.pc + BitVec.ofNat 16 length)) := by
  simp [Advanced, BitVec.toNat_add]

theorem flagsZN_znByte (v p : Byte) : FlagsZN v p (znByte v p) := by
  refine ⟨?_, ?_, fun g zero negative => ?_⟩
  · rw [znByte_get, if_neg (by decide), if_pos rfl]
    simp only [BitVec.toNat_eq]
    rfl
  · have := v.isLt
    rw [znByte_get, if_pos rfl]
    simp only [BitVec.getLsbD, Nat.testBit_eq_decide_div_mod_eq, decide_eq_decide]
    omega
  · rw [znByte_get, if_neg negative, if_neg zero]

/-- LDA's handler in a step (41_load_store.md R130). -/
theorem withHandler_ldaWith {length : Nat} (pos : 1 ≤ length) (s : State) (operand : State → Byte) :
    Loaded length (operand s.fetchAdvance) s (withHandler length (fun h => ldaWith (operand h) h) s) := by
  rw [withHandler_of_pc rfl pos]
  exact ⟨⟨rfl, flagsZN_znByte _ s.p, rfl, rfl, rfl, fun _ => rfl⟩, advanced_setPc length s _⟩

/-- STA's handler in a step (R140). -/
theorem withHandler_staTo {length : Nat} (pos : 1 ≤ length) {s : State} (wf : Memory.wf s.mem = true)
    (addr : State → Addr) :
    Stored length (addr s.fetchAdvance) s (withHandler length (fun h => staTo (addr h) h) s) := by
  rw [withHandler_of_pc rfl pos]
  exact ⟨⟨State.write_read_same (s := s.fetchAdvance) wf _ _,
    fun _ ne => State.write_read_other s.fetchAdvance ne _, rfl, rfl, rfl, rfl, rfl⟩, advanced_setPc length s _⟩

/-- Bit 7 of a masked byte (43_arithmetic.md R170). -/
theorem sign_bit_ne_zero : ∀ v : Byte, decide (v &&& 0x80#8 ≠ 0#8) = v.getLsbD 7 := by decide

/-- ADC's handler in a step (R170). -/
theorem withHandler_adcWith {length : Nat} (pos : 1 ≤ length) (s : State) (operand : State → Byte) :
    Added length (operand s.fetchAdvance) s (withHandler length (fun h => adcWith (operand h) h) s) := by
  rw [withHandler_of_pc rfl pos]
  generalize hop : operand s.fetchAdvance = op
  generalize hsum : adcSum s.a op (Flag.get .carry s.p) = sum
  have eq : adcWith op s.fetchAdvance = { s.fetchAdvance with a := sum.result, p := adcStatus sum s.p } := by
    rw [adcWith_eq]
    simp only [State.fetchAdvance_a, State.fetchAdvance_p, hsum]
  have zn := flagsZN_znByte sum.result s.p
  rw [eq]
  refine ⟨⟨?_, ?_, ?_, ?_, ?_, ?_, rfl, rfl, rfl, fun _ => rfl⟩, advanced_setPc length s _⟩
  · subst hsum
    simp [adcSum, State.setPc]
  · simp only [State.setPc, adcStatus_get, reduceCtorEq, if_false, if_true]
    subst hsum
    simp [adcSum]
  · simp only [State.setPc, adcStatus_get, reduceCtorEq, if_false, if_true]
    subst hsum
    exact sign_bit_ne_zero _
  · exact (by rw [← zn.1, znByte_get, adcStatus_get]; rfl :
      Flag.get .zero (adcStatus sum s.p) = decide (sum.result.toNat = 0))
  · exact (by rw [← zn.2.1, znByte_get, adcStatus_get]; rfl :
      Flag.get .negative (adcStatus sum s.p) = decide (128 ≤ sum.result.toNat))
  · intro g carry overflow zero negative
    simp only [State.setPc, adcStatus_get, carry, overflow, zero, negative, if_false]

/-- TAX's handler in a step (42_register_ops.md R160). -/
theorem withHandler_taxHandler {length : Nat} (pos : 1 ≤ length) (s : State) :
    WroteX length s.a.toNat s (withHandler length taxHandler s) := by
  rw [withHandler_of_pc rfl pos]
  exact ⟨⟨rfl, flagsZN_znByte s.a s.p, rfl, rfl, rfl, fun _ => rfl⟩, advanced_setPc length s _⟩

/-- INX's handler in a step (R163). -/
theorem withHandler_inxHandler {length : Nat} (pos : 1 ≤ length) (s : State) :
    WroteX length ((s.x.toNat + 1) % 256) s (withHandler length inxHandler s) := by
  rw [withHandler_of_pc rfl pos]
  refine ⟨⟨?_, flagsZN_znByte (s.x + 1) s.p, rfl, rfl, rfl, fun _ => rfl⟩, advanced_setPc length s _⟩
  exact BitVec.toNat_add s.x 1

/-- BRK in a step (44_control.md R190). -/
theorem haltedAtBrk_halt (s : State) : HaltedAtBrk s (halt s.fetchAdvance) :=
  ⟨rfl, by simp [Advanced, BitVec.toNat_add], rfl, rfl, rfl, rfl, fun _ => rfl⟩

/-! ### Every instruction, by its mnemonic -/

theorem Instr.length_pos (i : Instr) : 1 ≤ i.length := by
  cases i <;> simp only [Instr.length] <;> omega

/-- Every form of LDA is LDA's handler on the byte it addresses. -/
theorem exec_of_lda {i : Instr} (h : handlerOfInstr i = .lda) (s : State) :
    ∃ v t, exec i s = .next t ∧ Loaded i.length v s t := by
  cases i <;> simp only [handlerOfInstr, reduceCtorEq] at h <;>
    exact ⟨_, _, rfl, withHandler_ldaWith (Instr.length_pos _) s _⟩

/-- Every form of STA is STA's handler at the address `storeAddress` gives. -/
theorem exec_of_sta {i : Instr} (h : handlerOfInstr i = .sta) (s : State) :
    ∃ addr, storeAddress i s = some addr ∧
      exec i s = .next (withHandler i.length (fun h => staTo addr h) s) := by
  cases i <;> simp only [handlerOfInstr, reduceCtorEq] at h <;> exact ⟨_, rfl, rfl⟩

/-- Every form of ADC is ADC's handler on the byte `adcOperand` gives. -/
theorem exec_of_adc {i : Instr} (h : handlerOfInstr i = .adc) (s : State) :
    ∃ op t, adcOperand i s = some op ∧ exec i s = .next t ∧ Added i.length op s t := by
  cases i <;> simp only [handlerOfInstr, reduceCtorEq] at h <;>
    exact ⟨_, _, by rfl, rfl, withHandler_adcWith (Instr.length_pos _) s _⟩

/-- Only ADC has a byte it adds. -/
theorem handler_of_adcOperand {i : Instr} {s : State} {op : Byte} (h : adcOperand i s = some op) :
    handlerOfInstr i = .adc := by
  cases i <;> simp only [adcOperand, reduceCtorEq] at h <;> rfl

/-- Only STA has an address it stores to. -/
theorem handler_of_storeAddress {i : Instr} {s : State} {addr : Addr} (h : storeAddress i s = some addr) :
    handlerOfInstr i = .sta := by
  cases i <;> simp only [storeAddress, reduceCtorEq] at h <;> rfl

/-- What raising a fatal condition of the byte at PC leaves (60_exceptions.md R206). -/
theorem raised_raise (kind : FatalKind) (s : State) : Raised kind s (raise kind (s.read s.pc) s) :=
  ⟨rfl, rfl, rfl, rfl, rfl, rfl, fun _ => rfl⟩

theorem Raised.aborted {kind : FatalKind} {s t : State} (h : Raised kind s t) : Aborted kind s t :=
  ⟨⟨_, _, h.1⟩, h.2.1, h.2.2.1, h.2.2.2.1, h.2.2.2.2.1, h.2.2.2.2.2.2⟩

end Sys2Proof.Machine
end

