-- ==== Sys2Proof/Laws/PerInstr.lean ====
section
/-!
SUPPORT. Statements made of every instruction as syntax, one lemma for each constructor.
-/

namespace Sys2Proof.Laws

/-- An instruction's encoding is its opcode byte and its operand bytes, as many bytes as its length says, and the instruction is
well formed (30_encoding.md R80, R81). -/
def EncodingShape.Statement (i : Instr) : Prop :=
  (encode i).head? = some i.opcode ∧ (encode i).length = i.length ∧ i.wf = true

theorem EncodingShape.brk : EncodingShape.Statement .brk := ⟨rfl, rfl, rfl⟩
theorem EncodingShape.adcIndirectX (b : Byte) : EncodingShape.Statement (.adcIndirectX b) := ⟨rfl, rfl, rfl⟩
theorem EncodingShape.adcZeroPage (b : Byte) : EncodingShape.Statement (.adcZeroPage b) := ⟨rfl, rfl, rfl⟩
theorem EncodingShape.adcImmediate (b : Byte) : EncodingShape.Statement (.adcImmediate b) := ⟨rfl, rfl, rfl⟩
theorem EncodingShape.adcAbsolute (w : Addr) : EncodingShape.Statement (.adcAbsolute w) := ⟨rfl, rfl, rfl⟩
theorem EncodingShape.adcIndirectY (b : Byte) : EncodingShape.Statement (.adcIndirectY b) := ⟨rfl, rfl, rfl⟩
theorem EncodingShape.adcZeroPageX (b : Byte) : EncodingShape.Statement (.adcZeroPageX b) := ⟨rfl, rfl, rfl⟩
theorem EncodingShape.adcAbsoluteY (w : Addr) : EncodingShape.Statement (.adcAbsoluteY w) := ⟨rfl, rfl, rfl⟩
theorem EncodingShape.adcAbsoluteX (w : Addr) : EncodingShape.Statement (.adcAbsoluteX w) := ⟨rfl, rfl, rfl⟩
theorem EncodingShape.staIndirectX (b : Byte) : EncodingShape.Statement (.staIndirectX b) := ⟨rfl, rfl, rfl⟩
theorem EncodingShape.staZeroPage (b : Byte) : EncodingShape.Statement (.staZeroPage b) := ⟨rfl, rfl, rfl⟩
theorem EncodingShape.staAbsolute (w : Addr) : EncodingShape.Statement (.staAbsolute w) := ⟨rfl, rfl, rfl⟩
theorem EncodingShape.staIndirectY (b : Byte) : EncodingShape.Statement (.staIndirectY b) := ⟨rfl, rfl, rfl⟩
theorem EncodingShape.staZeroPageX (b : Byte) : EncodingShape.Statement (.staZeroPageX b) := ⟨rfl, rfl, rfl⟩
theorem EncodingShape.staAbsoluteY (w : Addr) : EncodingShape.Statement (.staAbsoluteY w) := ⟨rfl, rfl, rfl⟩
theorem EncodingShape.staAbsoluteX (w : Addr) : EncodingShape.Statement (.staAbsoluteX w) := ⟨rfl, rfl, rfl⟩
theorem EncodingShape.ldaIndirectX (b : Byte) : EncodingShape.Statement (.ldaIndirectX b) := ⟨rfl, rfl, rfl⟩
theorem EncodingShape.ldaZeroPage (b : Byte) : EncodingShape.Statement (.ldaZeroPage b) := ⟨rfl, rfl, rfl⟩
theorem EncodingShape.ldaImmediate (b : Byte) : EncodingShape.Statement (.ldaImmediate b) := ⟨rfl, rfl, rfl⟩
theorem EncodingShape.tax : EncodingShape.Statement .tax := ⟨rfl, rfl, rfl⟩
theorem EncodingShape.ldaAbsolute (w : Addr) : EncodingShape.Statement (.ldaAbsolute w) := ⟨rfl, rfl, rfl⟩
theorem EncodingShape.ldaIndirectY (b : Byte) : EncodingShape.Statement (.ldaIndirectY b) := ⟨rfl, rfl, rfl⟩
theorem EncodingShape.ldaZeroPageX (b : Byte) : EncodingShape.Statement (.ldaZeroPageX b) := ⟨rfl, rfl, rfl⟩
theorem EncodingShape.ldaAbsoluteY (w : Addr) : EncodingShape.Statement (.ldaAbsoluteY w) := ⟨rfl, rfl, rfl⟩
theorem EncodingShape.ldaAbsoluteX (w : Addr) : EncodingShape.Statement (.ldaAbsoluteX w) := ⟨rfl, rfl, rfl⟩
theorem EncodingShape.inx : EncodingShape.Statement .inx := ⟨rfl, rfl, rfl⟩

end Sys2Proof.Laws
end

