-- ==== Sys2Proof/Tests/Slice0.lean ====
section
/-!
SUPPORT. Tests of the model. Expected results are the spec's own: the encodings of 30_encoding.md R86 and the worked examples and
vectors of the rules and of 95_test_vectors.md, named at each group. Then, for every statement with hypotheses, a state and operands that
meet them.
-/

namespace Sys2Proof.Tests

open Sys2Proof Sys2Proof.Machine

/-- The next state of an outcome. -/
def next? : Host.Outcome State Fault Refusal → Option State
  | .next t => some t
  | .fault _ => none
  | .refused _ => none

/-- A state during a run: registers A, X, Y and P, bytes of memory, and code at 0x8000, where PC is. -/
def st (a x y p : Byte) (bytes : List (Addr × Byte)) (code : List Byte) : State :=
  let s : State := { a := a, x := x, y := y, p := p, pc := 0x8000, runState := .running, mem := [] }
  (bytes.foldl (fun s e => s.write e.1 e.2) s).placeBytes 0x8000 code

/-- A, P and PC after one step. -/
def stepA (s : State) : Option (Byte × Byte × Addr) := (next? (step s)).map fun t => (t.a, t.p, t.pc)

/-- X, P and PC after one step. -/
def stepX (s : State) : Option (Byte × Byte × Addr) := (next? (step s)).map fun t => (t.x, t.p, t.pc)

/-- A byte of memory, P and PC after one step. -/
def stepM (addr : Addr) (s : State) : Option (Byte × Byte × Addr) := (next? (step s)).map fun t => (t.read addr, t.p, t.pc)

/-! ### Well-formedness: what each check refuses (00_scope.md R9, 70_reset_and_hazards.md R236) -/

theorem test_length_zero_refused : lengthOk 0 = false := by decide
theorem test_length_four_refused : lengthOk 4 = false := by decide
theorem test_record_of_length_four_refused : MetaRecord.wf ⟨"NOP", 4, .noneAddressing, 0⟩ = false := by decide
theorem test_record_of_length_zero_refused : MetaRecord.wf ⟨"NOP", 0, .noneAddressing, 0⟩ = false := by decide
theorem test_config_with_bad_record_refused :
    Config.wf { Config.default with metadata := [(0xEA, ⟨"NOP", 4, .noneAddressing, 0⟩)] } = false := by decide
theorem test_default_config_wf : Config.default.wf = true := by decide
theorem test_long_image_refused :
    Config.imageFits { Config.default with loadAddr := 0xFFFE } [0x00, 0x00, 0x00] = false := by decide
theorem test_every_instruction_wf : Instr.wf (.ldaAbsolute 0xFFFF) = true := by decide
theorem test_memory_with_unwritten_entry_refused : Memory.wf [(3, 0x00)] = false := by decide
theorem test_memory_out_of_order_refused : Memory.wf [(3, 0x01), (2, 0x01)] = false := by decide
theorem test_memory_past_the_top_refused : Memory.wf [(65536, 0x01)] = false := by decide

/-! ### Decoding: words written bit by bit from 30_encoding.md R86 -/

theorem test_decode_brk : decode [0b00000000, 0x77] = .ok (.brk, [0x77]) := by decide
theorem test_decode_adcIndirectX : decode [0b01100001, 0b10010110, 0x77] = .ok (.adcIndirectX 0x96, [0x77]) := by decide
theorem test_decode_adcZeroPage : decode [0b01100101, 0b10010110, 0x77] = .ok (.adcZeroPage 0x96, [0x77]) := by decide
theorem test_decode_adcImmediate : decode [0b01101001, 0b10010110, 0x77] = .ok (.adcImmediate 0x96, [0x77]) := by decide
theorem test_decode_adcAbsolute : decode [0b01101101, 0b00110100, 0b00010010, 0x77] = .ok (.adcAbsolute 0x1234, [0x77]) := by decide
theorem test_decode_adcIndirectY : decode [0b01110001, 0b10010110, 0x77] = .ok (.adcIndirectY 0x96, [0x77]) := by decide
theorem test_decode_adcZeroPageX : decode [0b01110101, 0b10010110, 0x77] = .ok (.adcZeroPageX 0x96, [0x77]) := by decide
theorem test_decode_adcAbsoluteY : decode [0b01111001, 0b00110100, 0b00010010, 0x77] = .ok (.adcAbsoluteY 0x1234, [0x77]) := by decide
theorem test_decode_adcAbsoluteX : decode [0b01111101, 0b00110100, 0b00010010, 0x77] = .ok (.adcAbsoluteX 0x1234, [0x77]) := by decide
theorem test_decode_staIndirectX : decode [0b10000001, 0b10010110, 0x77] = .ok (.staIndirectX 0x96, [0x77]) := by decide
theorem test_decode_staZeroPage : decode [0b10000101, 0b10010110, 0x77] = .ok (.staZeroPage 0x96, [0x77]) := by decide
theorem test_decode_staAbsolute : decode [0b10001101, 0b00110100, 0b00010010, 0x77] = .ok (.staAbsolute 0x1234, [0x77]) := by decide
theorem test_decode_staIndirectY : decode [0b10010001, 0b10010110, 0x77] = .ok (.staIndirectY 0x96, [0x77]) := by decide
theorem test_decode_staZeroPageX : decode [0b10010101, 0b10010110, 0x77] = .ok (.staZeroPageX 0x96, [0x77]) := by decide
theorem test_decode_staAbsoluteY : decode [0b10011001, 0b00110100, 0b00010010, 0x77] = .ok (.staAbsoluteY 0x1234, [0x77]) := by decide
theorem test_decode_staAbsoluteX : decode [0b10011101, 0b00110100, 0b00010010, 0x77] = .ok (.staAbsoluteX 0x1234, [0x77]) := by decide
theorem test_decode_ldaIndirectX : decode [0b10100001, 0b10010110, 0x77] = .ok (.ldaIndirectX 0x96, [0x77]) := by decide
theorem test_decode_ldaZeroPage : decode [0b10100101, 0b10010110, 0x77] = .ok (.ldaZeroPage 0x96, [0x77]) := by decide
theorem test_decode_ldaImmediate : decode [0b10101001, 0b10010110, 0x77] = .ok (.ldaImmediate 0x96, [0x77]) := by decide
theorem test_decode_tax : decode [0b10101010, 0x77] = .ok (.tax, [0x77]) := by decide
theorem test_decode_ldaAbsolute : decode [0b10101101, 0b00110100, 0b00010010, 0x77] = .ok (.ldaAbsolute 0x1234, [0x77]) := by decide
theorem test_decode_ldaIndirectY : decode [0b10110001, 0b10010110, 0x77] = .ok (.ldaIndirectY 0x96, [0x77]) := by decide
theorem test_decode_ldaZeroPageX : decode [0b10110101, 0b10010110, 0x77] = .ok (.ldaZeroPageX 0x96, [0x77]) := by decide
theorem test_decode_ldaAbsoluteY : decode [0b10111001, 0b00110100, 0b00010010, 0x77] = .ok (.ldaAbsoluteY 0x1234, [0x77]) := by decide
theorem test_decode_ldaAbsoluteX : decode [0b10111101, 0b00110100, 0b00010010, 0x77] = .ok (.ldaAbsoluteX 0x1234, [0x77]) := by decide
theorem test_decode_inx : decode [0b11101000, 0x77] = .ok (.inx, [0x77]) := by decide

theorem test_decode_unrecognized : decode [0x02, 0x00, 0x00] = .error (.unrecognizedOpcode 0x02) := by decide
theorem test_decode_truncated : decode [0xAD, 0x34] = .error (.truncated 0xAD) := by decide
theorem test_decode_nothing : decode [] = .error .noBytes := by decide
theorem test_table_word_bytes : decodeTableWord 16 0x96A9 = some (.ldaImmediate 0x96) := by decide
theorem test_table_word_words : decodeTableWord 24 0x12348D = some (.staAbsolute 0x1234) := by decide
theorem test_table_word_short : decodeTableWord 8 0x8D = some (.staAbsolute 0x0000) := by decide
theorem test_fetch_word_runs : (next? (step (State.reset.withFetchWord 16 0x80A9))).map (fun t => (t.a, t.p, t.pc)) =
    some (0x80, 0x80, 0x0002) := by decide

/-! ### One step of each opcode: the worked examples of 41_load_store.md, 42_register_ops.md, 43_arithmetic.md and 44_control.md -/

/-- R131 -/
theorem test_ldaImmediate :
    stepA (st 0 0 0 0x00 [] [0xA9, 0x80]) = some (0x80, 0x80, 0x8002) := by decide
/-- 95 LDA -/
theorem test_ldaImmediate_keeps_C_V :
    stepA (st 0 0 0 0x41 [] [0xA9, 0x00]) = some (0x00, 0x43, 0x8002) := by decide
/-- R132 -/
theorem test_ldaZeroPage :
    stepA (st 0x55 0 0 0x00 [(0x0010, 0x00)] [0xA5, 0x10]) = some (0x00, 0x02, 0x8002) := by decide
/-- R133 -/
theorem test_ldaZeroPageX :
    stepA (st 0 0x02 0 0x00 [(0x0001, 0x9C), (0x0101, 0xEE)] [0xB5, 0xFF]) = some (0x9C, 0x80, 0x8002) := by decide
/-- R134 -/
theorem test_ldaAbsolute :
    stepA (st 0 0 0 0x00 [(0x1234, 0x42)] [0xAD, 0x34, 0x12]) = some (0x42, 0x00, 0x8003) := by decide
/-- R135 -/
theorem test_ldaAbsoluteX :
    stepA (st 0 0x20 0 0x00 [(0x1310, 0x01)] [0xBD, 0xF0, 0x12]) = some (0x01, 0x00, 0x8003) := by decide
/-- R136 -/
theorem test_ldaAbsoluteY :
    stepA (st 0 0 0x01 0x00 [(0x0000, 0xFF)] [0xB9, 0xFF, 0xFF]) = some (0xFF, 0x80, 0x8003) := by decide
/-- R137 -/
theorem test_ldaIndirectX :
    stepA (st 0 0x04 0 0x00 [(0x0024, 0x74), (0x0025, 0x20), (0x2074, 0x55)] [0xA1, 0x20]) = some (0x55, 0x00, 0x8002) := by decide
/-- R138 -/
theorem test_ldaIndirectY :
    stepA (st 0x99 0 0x02 0x80 [(0x0012, 0x45), (0x0013, 0x33), (0x3347, 0x00)] [0xB1, 0x12]) = some (0x00, 0x02, 0x8002) := by decide
/-- 95 STA -/
theorem test_staZeroPage :
    stepM 0x0010 (st 0x00 0 0 0x00 [(0x0010, 0x99)] [0x85, 0x10]) = some (0x00, 0x00, 0x8002) := by decide
/-- R142 -/
theorem test_staZeroPageX :
    stepM 0x0001 (st 0x07 0x02 0 0x00 [(0x0101, 0xEE)] [0x95, 0xFF]) = some (0x07, 0x00, 0x8002) := by decide
/-- R142 -/
theorem test_staZeroPageX_wraps :
    stepM 0x0101 (st 0x07 0x02 0 0x00 [(0x0101, 0xEE)] [0x95, 0xFF]) = some (0xEE, 0x00, 0x8002) := by decide
/-- R143 -/
theorem test_staAbsolute :
    stepM 0x0200 (st 0x42 0 0 0xC3 [] [0x8D, 0x00, 0x02]) = some (0x42, 0xC3, 0x8003) := by decide
/-- R144 -/
theorem test_staAbsoluteX :
    stepM 0x0010 (st 0x11 0x20 0 0x00 [] [0x9D, 0xF0, 0xFF]) = some (0x11, 0x00, 0x8003) := by decide
/-- R145 -/
theorem test_staAbsoluteY :
    stepM 0x0305 (st 0x22 0 0x05 0x00 [] [0x99, 0x00, 0x03]) = some (0x22, 0x00, 0x8003) := by decide
/-- R146 -/
theorem test_staIndirectX :
    stepM 0x0400 (st 0x33 0x01 0 0x00 [(0x00FF, 0x00), (0x0000, 0x04)] [0x81, 0xFE]) = some (0x33, 0x00, 0x8002) := by decide
/-- R147 -/
theorem test_staIndirectY :
    stepM 0x3347 (st 0x44 0 0x02 0x00 [(0x0012, 0x45), (0x0013, 0x33)] [0x91, 0x12]) = some (0x44, 0x00, 0x8002) := by decide
/-- 95 TAX -/
theorem test_tax :
    stepX (st 0x7F 0x00 0 0xC3 [] [0xAA]) = some (0x7F, 0x41, 0x8001) := by decide
/-- 95 TAX -/
theorem test_tax_zero :
    stepX (st 0x00 0x12 0 0x00 [] [0xAA]) = some (0x00, 0x02, 0x8001) := by decide
/-- 95 INX -/
theorem test_inx_wraps :
    stepX (st 0 0xFF 0 0x01 [] [0xE8]) = some (0x00, 0x03, 0x8001) := by decide
/-- 95 INX -/
theorem test_inx_negative :
    stepX (st 0 0x7F 0 0x00 [] [0xE8]) = some (0x80, 0x80, 0x8001) := by decide
/-- R174 -/
theorem test_adcImmediate :
    stepA (st 0xFF 0 0 0x00 [] [0x69, 0x01]) = some (0x00, 0x03, 0x8002) := by decide
/-- 95 ADC -/
theorem test_adcImmediate_decimal :
    stepA (st 0x3C 0 0 0x09 [] [0x69, 0x00]) = some (0x3D, 0x08, 0x8002) := by decide
/-- R175 -/
theorem test_adcZeroPage :
    stepA (st 0x7F 0 0 0x00 [(0x0010, 0x10)] [0x65, 0x10]) = some (0x8F, 0xC0, 0x8002) := by decide
/-- R176 -/
theorem test_adcZeroPageX :
    stepA (st 0x01 0x02 0 0x01 [(0x0001, 0x01)] [0x75, 0xFF]) = some (0x03, 0x00, 0x8002) := by decide
/-- R177 -/
theorem test_adcAbsolute :
    stepA (st 0x80 0 0 0x00 [(0x0200, 0x80)] [0x6D, 0x00, 0x02]) = some (0x00, 0x43, 0x8003) := by decide
/-- R178 -/
theorem test_adcAbsoluteX :
    stepA (st 0x50 0x20 0 0x00 [(0x1310, 0x50)] [0x7D, 0xF0, 0x12]) = some (0xA0, 0xC0, 0x8003) := by decide
/-- R179 -/
theorem test_adcAbsoluteY :
    stepA (st 0xD0 0 0x05 0x00 [(0x0305, 0x90)] [0x79, 0x00, 0x03]) = some (0x60, 0x41, 0x8003) := by decide
/-- R180 -/
theorem test_adcIndirectX :
    stepA (st 0x80 0x04 0 0x01 [(0x0024, 0x74), (0x0025, 0x20), (0x2074, 0xFF)] [0x61, 0x20]) = some (0x80, 0x81, 0x8002) := by decide
/-- R181 -/
theorem test_adcIndirectY :
    stepA (st 0x00 0 0x02 0x01 [(0x0012, 0x45), (0x0013, 0x33), (0x3347, 0x7F)] [0x71, 0x12]) = some (0x80, 0xC0, 0x8002) := by decide
/-- 95 BRK -/
theorem test_brk : (next? (step (st 0x12 0 0 0xFF [] [0x00]))).map (fun t => (t.a, t.p, t.pc, t.runState)) =
    some (0x12, 0xFF, 0x8001, .halted) := by decide
/-- 95 BRK: at 0xFFFF -/
theorem test_brk_at_the_top : (next? (step ((st 0 0 0 0 [] []).setPc 0xFFFF))).map (fun t => (t.pc, t.runState)) =
    some (0x0000, .halted) := by decide

/-! ### The dispatcher, faults, memory and the boundary (95_test_vectors.md, L2 and L3) -/

/-- 3 bytes across the top of memory. -/
theorem test_operand_across_the_top :
    stepA ((st 0 0 0 0 [(0xFFFE, 0xAD), (0x0000, 0x02), (0x0200, 0x11)] []).setPc 0xFFFE) = some (0x11, 0x00, 0x0001) := by decide
/-- V11 -/
theorem test_unrecognized_step : (next? (step (st 0x05 0 0 0 [] [0x02]))).map (fun t => (t.a, t.pc, t.runState)) =
    some (0x05, 0x8000, .faulted .unrecognizedOpcode 0x02 0x8000) := by decide

/-- META_DEFAULT with a record for 0x4C (JMP, Absolute, 3), which has no handler. -/
def withJmp : Config := { Config.default with metadata := (0x4C, ⟨"JMP", 3, .absolute, 3⟩) :: metaDefault }

/-- META with 0xA9 mapped to (LDA, NoneAddressing, 2). -/
def ldaNone : Config := { Config.default with metadata := (0xA9, ⟨"LDA", 2, .noneAddressing, 2⟩) :: metaDefault }

theorem test_not_implemented : (next? (dispatch withJmp (st 0x07 0 0 0 [] [0x4C, 0x00, 0x80]))).map (fun t => (t.a, t.pc, t.runState)) =
    some (0x07, 0x8000, .faulted .notImplemented 0x4C 0x8000) := by decide
theorem test_unsupported_mode : (next? (dispatch ldaNone (st 0x00 0 0 0 [] [0xA9, 0x07]))).map (fun t => (t.a, t.pc, t.runState)) =
    some (0x00, 0x8000, .faulted .unsupportedAddressingMode 0xA9 0x8000) := by decide
theorem test_handler_without_record : (next? (dispatch { Config.default with metadata := [] } (st 0 0 0 0 [] [0xA9, 0x07]))).map
    (·.runState) = some (.faulted .unrecognizedOpcode 0xA9 0x8000) := by decide
theorem test_fault_codes : [FatalKind.unrecognizedOpcode, .notImplemented, .unsupportedAddressingMode].map FatalKind.code = [1, 2, 3] := by
  decide
theorem test_read16_at_the_top : (st 0 0 0 0 [(0xFFFF, 0xCD), (0x0000, 0xAB)] []).read16 0xFFFF = 0xABCD := by decide
theorem test_write16_at_the_top : ((st 0 0 0 0 [] []).write16 0xFFFF 0x1234).mem = [(0x0000, 0x12), (0xFFFF, 0x34)] := by decide
theorem test_write_of_unwritten_removes : ((st 0 0 0 0 [(0x0200, 0x42)] []).write 0x0200 0x00).mem = [] := by decide
theorem test_zeroPageY_mode : resolve .zeroPageY ((st 0 0 0x90 0 [] [0x80])) = some 0x0010 := by decide
theorem test_indirectY_wraps : resolve .indirectY (st 0 0 0xF0 0 [(0x00FF, 0x10), (0x0000, 0x20)] [0xFF]) = some 0x2100 := by decide
theorem test_zn : [znByte 0x00 0x41, znByte 0x90 0x3C, znByte 0x01 0xFF] = [0x43, 0xBC, 0x7D] := by decide

/-- A state between runs. -/
def idleState : State := { (st 0xFF 0xFF 0x55 0xFF [(0xFFFD, 0x80)] []) with runState := .idle }

theorem test_reset : (next? (reset Config.default idleState)).map (fun t => (t.a, t.x, t.y, t.p, t.pc, t.runState)) =
    some (0x00, 0x00, 0x55, 0x00, 0x8000, .idle) := by decide
theorem test_reset_clears_y : (next? (reset { Config.default with resetClearsY := true } idleState)).map (·.y) = some 0x00 := by decide
theorem test_load : (next? (load Config.default [0xA9, 0x01, 0x00] State.creation)).map (·.mem) =
    some [(0x8000, 0xA9), (0x8001, 0x01), (0xFFFD, 0x80)] := by decide
/-- V3 -/
theorem test_loadAndRun : (next? (loadAndRun Config.default 2 [0xA9, 0x00, 0x00] idleState)).map (fun t => (t.a, t.p, t.pc, t.runState)) =
    some (0x00, 0x02, 0x8003, .halted) := by decide
theorem test_create : (create 0x01 0x02 0x03 0x04 0x0506 [0x00, 0x77]).mem = [(0x0001, 0x77)] := by decide

/-! ### A state and operands for every statement with hypotheses -/

theorem witness_DecodedBytesAreTheEncoding : decode [0xA9, 0x05, 0x00] = .ok (.ldaImmediate 0x05, [0x00]) := by decide
theorem witness_OpcodeByteFixesLength :
    decode [0xA9, 0x05] = .ok (.ldaImmediate 0x05, []) ∧ decode [0xA9, 0xFF] = .ok (.ldaImmediate 0xFF, []) := by decide

/-- LDA #$05 at PC. -/
def atLda : State := st 0 0 0 0 [] [0xA9, 0x05]

theorem witness_StepRunsDecodedInstruction : atLda.runState = .running ∧
    decode [atLda.read atLda.pc, atLda.read (atLda.pc + 1), atLda.read (atLda.pc + 2)] = .ok (.ldaImmediate 0x05, [0x00]) ∧
    (Instr.ldaImmediate 0x05).wf = true := by decide
theorem witness_StepWithoutRunKeepsState : State.reset.runState ≠ .running := by decide
theorem witness_StepKeepsInvariant : ∃ t, RunInvariant State.reset ∧ step State.reset = .next t :=
  ⟨_, ⟨rfl, fun _ _ _ h => by cases h⟩, rfl⟩
/-- A state during a run that meets the invariant and whose step raises. -/
theorem witness_StepKeepsInvariant_raising :
    RunInvariant (st 0 0 0 0 [] [0x02]) ∧ ∃ t, step (st 0 0 0 0 [] [0x02]) = .next t ∧ t.runState ≠ .running :=
  ⟨⟨by decide, fun _ _ _ h => by cases h⟩, _, rfl, by decide⟩

theorem witness_DispatchChecksInOrder_no_record : Config.default.wf = true ∧ (st 0 0 0 0 [] [0x02]).runState = .running ∧
    recordOf Config.default ((st 0 0 0 0 [] [0x02]).read 0x8000) = none := by decide
theorem witness_DispatchChecksInOrder_no_handler : withJmp.wf = true ∧ (st 0 0 0 0 [] [0x4C]).runState = .running ∧
    recordOf withJmp ((st 0 0 0 0 [] [0x4C]).read 0x8000) = some ⟨"JMP", 3, .absolute, 3⟩ ∧
    handlerOf withJmp ((st 0 0 0 0 [] [0x4C]).read 0x8000) = none := ⟨by decide, by decide, rfl, by decide⟩
theorem witness_DispatchChecksInOrder_placeholder : ldaNone.wf = true ∧ atLda.runState = .running ∧
    recordOf ldaNone (atLda.read atLda.pc) = some ⟨"LDA", 2, .noneAddressing, 2⟩ ∧
    handlerOf ldaNone (atLda.read atLda.pc) = some .lda := ⟨by decide, by decide, rfl, by decide⟩
/-- An LDA that completes, and a BRK, whose placeholder mode is not resolved. -/
theorem witness_DispatchChecksInOrder_completes : Config.default.wf = true ∧ atLda.runState = .running ∧
    recordOf Config.default (atLda.read atLda.pc) = some ⟨"LDA", 2, .immediate, 2⟩ ∧
    handlerOf Config.default (atLda.read atLda.pc) = some .lda ∧
    recordOf Config.default 0x00 = some ⟨"BRK", 1, .noneAddressing, 7⟩ ∧ handlerOf Config.default 0x00 = some .brk :=
  ⟨by decide, by decide, rfl, by decide, rfl, by decide⟩

theorem witness_RaisingStepChangesNothing : ∃ t, atLda.runState = .running ∧ dispatch ldaNone atLda = .next t ∧
    t.runState = .faulted .unsupportedAddressingMode 0xA9 0x8000 := ⟨_, rfl, rfl, by decide⟩
theorem witness_FaultRecursWhenRunAgain : ∃ t, (st 0 0 0 0 [] [0x4C]).runState = .running ∧
    dispatch withJmp (st 0 0 0 0 [] [0x4C]) = .next t ∧ t.runState = .faulted .notImplemented 0x4C 0x8000 := ⟨_, rfl, rfl, by decide⟩
theorem witness_CompletedStepAdvancesByLength : ∃ t, atLda.runState = .running ∧
    recordOf Config.default (atLda.read atLda.pc) = some ⟨"LDA", 2, .immediate, 2⟩ ∧ dispatch Config.default atLda = .next t ∧
    t.runState = .running := ⟨_, rfl, rfl, rfl, by decide⟩
/-- Both clauses of step 5: the counter as recorded, and moved. -/
theorem witness_CompletedStepAdvancesByLength_skip : (1 ≤ 3) ∧ atLda.pc = 0x8000 ∧ atLda.pc ≠ 0x8001 := by decide
theorem witness_UnrecognizedByteRaises : (st 0 0 0 0 [] [0x02]).runState = .running ∧
    (st 0 0 0 0 [] [0x02]).read (st 0 0 0 0 [] [0x02]).pc ∉ definedOpcodes ∧
    recordOf Config.default ((st 0 0 0 0 [] [0x02]).read (st 0 0 0 0 [] [0x02]).pc) = none := by decide
/-- A placeholder that raises, one that does not because BRK resolves nothing, and a step under the defaults. -/
theorem witness_UnsupportedModeRaisedByResolversOnly : (∃ t, ldaNone.wf = true ∧ atLda.runState = .running ∧
    dispatch ldaNone atLda = .next t ∧ t.runState = .faulted .unsupportedAddressingMode 0xA9 0x8000) ∧
    (∃ t, Config.default.wf = true ∧ (st 0 0 0 0 [] [0x00]).runState = .running ∧
      dispatch Config.default (st 0 0 0 0 [] [0x00]) = .next t ∧ t.runState = .halted) :=
  ⟨⟨_, by decide, rfl, rfl, by decide⟩, ⟨_, by decide, rfl, rfl, by decide⟩⟩
theorem witness_LargerMetaRunsTheSameOpcodes : withJmp.wf = true ∧ withJmp.handlers = handlersDefault ∧
    (∀ op ∈ definedOpcodes, recordOf withJmp op = recordOf Config.default op) ∧
    (atLda.runState = .running ∧ atLda.read atLda.pc ∈ definedOpcodes) ∧
    ((st 0 0 0 0 [] [0x4C]).runState = .running ∧ (st 0 0 0 0 [] [0x4C]).read 0x8000 ∉ definedOpcodes) := by
  refine ⟨by decide, rfl, fun op h => ?_, by decide, by decide⟩
  have ne : (op == 0x4C) = false := by
    have all : ∀ o ∈ definedOpcodes, (o == 0x4C) = false := by decide
    exact all op h
  simp only [recordOf, withJmp, Config.default, List.lookup_cons, ne]

/-- ADC #$01 at PC with A = 0xFF: it sets Carry. -/
def atAdc : State := st 0xFF 0 0 0 [] [0x69, 0x01]

theorem witness_CarryOverflowOnlyByAdcOthersUnread : ∃ t, step atAdc = .next t ∧ Flag.get .carry t.p ≠ Flag.get .carry atAdc.p :=
  ⟨_, rfl, by decide⟩
theorem witness_CarryOverflowOnlyByAdcOthersUnread_flags : ∃ s' t', Flag.get .carry atAdc.p = Flag.get .carry (atAdc.setP 0xFE).p ∧
    { atAdc with p := (atAdc.setP 0xFE).p } = atAdc.setP 0xFE ∧ step atAdc = .next s' ∧ step (atAdc.setP 0xFE) = .next t' :=
  ⟨_, _, by decide, rfl, rfl, rfl⟩
theorem witness_CarryOverflowOnlyByAdcOthersUnread_adc : handlerOfInstr (.adcImmediate 0x01) = .adc ∧
    adcOperand (.adcImmediate 0x01) atAdc = some 0x01 := by decide
theorem witness_StepKeepsYAndStorageFlags : ∃ t, step atAdc = .next t := ⟨_, rfl⟩

/-- STA $0200 at PC with A = 0x42. -/
def atSta : State := st 0x42 0 0 0 [] [0x8D, 0x00, 0x02]

theorem witness_OnlyStaWritesMemory : ∃ t, Memory.wf atSta.mem = true ∧ step atSta = .next t ∧ t.read 0x0200 ≠ atSta.read 0x0200 :=
  ⟨_, by decide, rfl, by decide⟩

/-- A state with a given byte at PC, canonical memory and a run in progress. -/
def atByte (op : Byte) : State := st 0x42 0xFF 0xFF 0 [] [op, 0xFF, 0xFF]

/-- Every clause of LdaOpcodesStep, StaOpcodesStep, AdcOpcodesStep, TaxInxOpcodesStep and BrkOpcodeStep, at the top of each operand's range. -/
theorem witness_OpcodesStep : ∀ op ∈ definedOpcodes,
    (atByte op).runState = .running ∧ Memory.wf (atByte op).mem = true ∧ (atByte op).read (atByte op).pc = op := by decide

/-- META in which the three handlers that resolve have a placeholder mode at 0xA9, 0x85 and 0x65, and TAX, INX and BRK a real one with another length. -/
def swapped : Config :=
  { Config.default with metadata :=
      [(0xA9, ⟨"LDA", 2, .noneAddressing, 2⟩), (0x85, ⟨"STA", 2, .noneAddressing, 3⟩), (0x65, ⟨"ADC", 2, .noneAddressing, 3⟩),
       (0xAA, ⟨"TAX", 3, .absoluteX, 2⟩), (0xE8, ⟨"INX", 2, .zeroPage, 2⟩), (0x00, ⟨"BRK", 3, .absolute, 7⟩)] }

theorem witness_LdaHandlerInAnyMode : Config.default.wf = true ∧ atLda.runState = .running ∧
    recordOf Config.default (atLda.read atLda.pc) = some ⟨"LDA", 2, .immediate, 2⟩ ∧
    handlerOf Config.default (atLda.read atLda.pc) = some .lda := ⟨by decide, by decide, rfl, by decide⟩
theorem witness_HandlerInAnyMode_placeholder : swapped.wf = true ∧ ∀ e ∈ [((0xA9 : Byte), Handler.lda), (0x85, .sta), (0x65, .adc)],
    (atByte e.1).runState = .running ∧ Memory.wf (atByte e.1).mem = true ∧
    (recordOf swapped ((atByte e.1).read (atByte e.1).pc)).map (·.mode) = some .noneAddressing ∧
    handlerOf swapped ((atByte e.1).read (atByte e.1).pc) = some e.2 := by decide
theorem witness_StaFormsComplete : Memory.wf atSta.mem = true := by decide
theorem witness_StaHandlerInAnyMode : Config.default.wf = true ∧ atSta.runState = .running ∧ Memory.wf atSta.mem = true ∧
    recordOf Config.default (atSta.read atSta.pc) = some ⟨"STA", 3, .absolute, 4⟩ ∧
    handlerOf Config.default (atSta.read atSta.pc) = some .sta := ⟨by decide, by decide, by decide, rfl, by decide⟩
theorem witness_AdcHandlerInAnyMode : Config.default.wf = true ∧ atAdc.runState = .running ∧
    recordOf Config.default (atAdc.read atAdc.pc) = some ⟨"ADC", 2, .immediate, 2⟩ ∧
    handlerOf Config.default (atAdc.read atAdc.pc) = some .adc := ⟨by decide, by decide, rfl, by decide⟩
theorem witness_TaxInxIgnoreTheMode : Config.default.wf = true ∧ swapped.wf = true ∧
    (∀ op ∈ [(0xAA : Byte), 0xE8], (atByte op).runState = .running ∧ (atByte op).read (atByte op).pc = op) ∧
    recordOf Config.default 0xAA = some ⟨"TAX", 1, .noneAddressing, 2⟩ ∧ handlerOf Config.default 0xAA = some .tax ∧
    recordOf swapped 0xE8 = some ⟨"INX", 2, .zeroPage, 2⟩ ∧ handlerOf swapped 0xE8 = some .inx :=
  ⟨by decide, by decide, by decide, rfl, by decide, rfl, by decide⟩
theorem witness_BrkIgnoresItsRecord : swapped.wf = true ∧ (atByte 0x00).runState = .running ∧
    recordOf swapped ((atByte 0x00).read (atByte 0x00).pc) = some ⟨"BRK", 3, .absolute, 7⟩ ∧
    handlerOf swapped ((atByte 0x00).read (atByte 0x00).pc) = some .brk := ⟨by decide, by decide, rfl, by decide⟩
/-- P4 of 95_test_vectors.md: STA $8003 stores 0x42 at the next opcode byte. -/
theorem witness_StoreIsSeenByNextFetch : (st 0x42 0 0 0 [] [0x8D, 0x03, 0x80]).runState = .running ∧
    Memory.wf (st 0x42 0 0 0 [] [0x8D, 0x03, 0x80]).mem = true ∧
    (st 0x42 0 0 0 [] [0x8D, 0x03, 0x80]).fetch = some (.staAbsolute 0x8003) ∧
    storeAddress (.staAbsolute 0x8003) (st 0x42 0 0 0 [] [0x8D, 0x03, 0x80]) = some 0x8003 ∧
    (next? (step (st 0x42 0 0 0 [] [0x8D, 0x03, 0x80]))).map (·.pc) = some 0x8003 := by decide
theorem witness_AdcIgnoresDecimalMode : handlerOfInstr (.adcIndirectY 0xFF) = .adc := by decide
/-- The first and the last row of the table. -/
theorem witness_AdcCornerTable : ((st 0x7F 0 0 0x00 [] []).a = 0x7F ∧ Flag.get .carry (st 0x7F 0 0 0x00 [] []).p = false) ∧
    ((st 0x3C 0 0 0x09 [] []).a = 0x3C ∧ Flag.get .carry (st 0x3C 0 0 0x09 [] []).p = true) := by decide
theorem witness_NonStoringFrame : ∃ t, handlerOfInstr (.ldaImmediate 0x05) ≠ .sta ∧ exec (.ldaImmediate 0x05) atLda = .next t :=
  ⟨_, by decide, rfl⟩
theorem witness_StoringFrame : ∃ t, handlerOfInstr (.staAbsolute 0x0200) = .sta ∧ exec (.staAbsolute 0x0200) atSta = .next t ∧
    storeAddress (.staAbsolute 0x0200) atSta = some 0x0200 := ⟨_, by decide, rfl, by decide⟩
theorem witness_ByteWriteReadsBack : Memory.wf atSta.mem = true ∧ (0x0201 : Addr) ≠ 0x0200 := by decide
theorem witness_WordAccessIsLittleEndian : Memory.wf atSta.mem = true ∧ (0x0001 : Addr) ≠ 0xFFFF ∧ (0x0001 : Addr) ≠ 0xFFFF + 1 := by decide
theorem witness_CanonicalMemoryIsUnique : Memory.wf [(0, 0x01), (65535, 0xFF)] = true := by decide
theorem witness_ResetWritesRegisters : idleState.runState ≠ .running ∧ atLda.runState = .running := by decide
theorem witness_LoadPlacesImageAndVector : idleState.runState ≠ .running ∧ Memory.wf idleState.mem = true ∧
    [0xA9#8, 0x01#8, 0x00#8].length ≤ 65536 - Config.default.loadAddr.toNat := by decide
/-- Where its clauses meet: the vector slot, the first and the last byte of the image and the byte after it. -/
theorem witness_LoadPlacesImageAndVector_clauses :
    (next? (load Config.default [0xA9, 0x01, 0x02] idleState)).map
      (fun t => [0xFFFD, 0xFFFC, 0x8000, 0x8002, 0x8003, 0x7FFF].map t.read) =
    some [0x80, 0x00, 0xA9, 0x02, 0x00, 0x00] := by decide
/-- An image one byte too long, and one that just fits, at LOAD_ADDR = 0xFFFF. -/
theorem witness_LoadRefusesOnlyLongImages : idleState.runState ≠ .running ∧ Memory.wf idleState.mem = true ∧
    65536 - ({ Config.default with loadAddr := 0xFFFF } : Config).loadAddr.toNat < [0x00#8, 0x00#8].length ∧
    [0x00#8].length ≤ 65536 - ({ Config.default with loadAddr := 0xFFFF } : Config).loadAddr.toNat := by decide
theorem witness_LoadAndRunComposes : idleState.runState ≠ .running ∧ Memory.wf idleState.mem = true ∧
    ([] : List Byte).length ≤ 65536 - Config.default.loadAddr.toNat := by decide
theorem witness_RunEndsHaltedOrFaulted : ∃ t, run Config.default 1 State.reset = .next t := ⟨_, rfl⟩
theorem witness_RunIsRepeatedSteps : idleState.runState ≠ .running := by decide

/-- Memory that holds one byte at every address. -/
def filled (v : Byte) : Memory := (List.range 65536).map fun k => (k, v)

theorem get_filled (keys : List Nat) (v : Byte) {k : Nat} (h : k ∈ keys) : Memory.get (keys.map fun j => (j, v)) k = v := by
  induction keys with
  | nil => cases h
  | cons j keys ih =>
    simp only [List.map_cons, Memory.get]
    split
    · rfl
    · next ne =>
      cases h with
      | head => exact absurd rfl ne
      | tail _ h => exact ih h

theorem read_filled (s : State) (v : Byte) (h : s.mem = filled v) (addr : Addr) : s.read addr = v := by
  have mem : addr.toNat ∈ List.range 65536 := List.mem_range.2 addr.isLt
  simp only [State.read, h, filled]
  generalize List.range 65536 = keys at mem
  exact get_filled keys v mem

theorem witness_InxEverywhereNeverEnds : ∃ s : State, s.runState ≠ .running ∧ ∀ addr : Addr, s.read addr = 0xE8 :=
  have filled_reads (m : Memory) (h : m = filled 0xE8) (addr : Addr) : ({ State.reset with mem := m } : State).read addr = 0xE8 :=
    read_filled _ _ h addr
  ⟨{ State.reset with mem := filled 0xE8 }, RunState.noConfusion, filled_reads _ rfl⟩

theorem witness_AccessorsReadBack : idleState.runState ≠ .running ∧ Memory.wf idleState.mem = true ∧ Register.a ≠ .p ∧
    (0xFFFE : Addr) ≠ 0xFFFF := by decide
theorem witness_StatusByteIsAllStorage : idleState.runState ≠ .running := by decide
theorem witness_HostOperationsRefusedDuringRun : atLda.runState = .running := by decide

end Sys2Proof.Tests
end

section
/-!
Proofs of 10_state.md. What a step can do to the status byte is said once: `StatusWrite` names the three ways an instruction writes P, and
`step_writesStatus` says that a step which answers a state uses one of them and reads no flag but Carry. Both whole-step clauses of
R28 follow from it.
-/

namespace Sys2Proof.Machine

/-! ### The ways an instruction writes P -/

/-- The three ways an instruction writes P: not at all, Z and N from a value (R27), or C, V, Z and N from ADC's sum (43_arithmetic.md R170). -/
inductive StatusWrite where
  | keep
  | zn (v : Byte)
  | adc (sum : AdcSum)

/-- The status byte that a way of writing P makes of the one before. -/
def StatusWrite.apply : StatusWrite → Byte → Byte
  | .keep, p => p
  | .zn v, p => znByte v p
  | .adc sum, p => adcStatus sum p

/-- Whatever the status byte before, a flag is written with one value or is kept. -/
theorem StatusWrite.apply_const_or_kept (w : StatusWrite) (g : Flag) :
    (∃ b, ∀ p, Flag.get g (w.apply p) = b) ∨ ∀ p, Flag.get g (w.apply p) = Flag.get g p := by
  cases w with
  | keep => exact .inr fun _ => rfl
  | zn v => cases g <;> simp [StatusWrite.apply, znByte_get]
  | adc sum => cases g <;> simp [StatusWrite.apply, adcStatus_get]

theorem StatusWrite.flagUnread_apply (w : StatusWrite) (g : Flag) (p q : Byte) :
    FlagUnread g p (w.apply p) q (w.apply q) := by
  obtain ⟨b, const⟩ | kept := w.apply_const_or_kept g
  · exact .inl ((const p).trans (const q).symm)
  · exact .inr ⟨kept p, kept q⟩

/-- A flag on which the status bytes before agree is one on which those after agree. -/
theorem StatusWrite.get_apply_congr (w : StatusWrite) {g : Flag} {p q : Byte} (h : Flag.get g p = Flag.get g q) :
    Flag.get g (w.apply p) = Flag.get g (w.apply q) := by
  obtain agree | ⟨p_kept, q_kept⟩ := w.flagUnread_apply g p q
  · exact agree
  · rw [p_kept, q_kept, h]

/-- Only ADC's way of writing P changes a flag other than Zero and Negative. -/
theorem StatusWrite.eq_adc_of_changed {w : StatusWrite} {g : Flag} {p : Byte} (zero : g ≠ .zero) (negative : g ≠ .negative)
    (changed : Flag.get g (w.apply p) ≠ Flag.get g p) : ∃ sum, w = .adc sum := by
  cases w with
  | keep => exact absurd rfl changed
  | zn v => simp [StatusWrite.apply, znByte_get, zero, negative] at changed
  | adc sum => exact ⟨sum, rfl⟩

/-! ### A step reads no flag but Carry -/

/-- While no run is in progress, a step keeps the state (60_exceptions.md R217). -/
theorem step_of_not_running {s : State} (idle : s.runState ≠ .running) : step s = .next s := by
  unfold step
  split
  · contradiction
  all_goals rfl

/-- From `s` with any status byte that has the Carry of `s`, `f` answers `t` but for the status byte, which `w` makes of the one before. -/
def WritesStatus (w : StatusWrite) (f : State → Host.Outcome State Fault Refusal) (s t : State) : Prop :=
  ∀ q : Byte, Flag.get .carry q = Flag.get .carry s.p → f (s.setP q) = .next (t.setP (w.apply q))

/-- What `f` answers from `s` itself has the status byte that `w` makes. -/
theorem WritesStatus.status {w : StatusWrite} {f : State → Host.Outcome State Fault Refusal} {s t s' : State}
    (h : WritesStatus w f s t) (next : f s = .next s') : s' = t.setP (w.apply s.p) :=
  Host.Outcome.next.inj (next.symm.trans (h s.p rfl))

/-- A handler that keeps PC and whose status byte `w` makes does so in a whole step (40_dispatch.md R114). -/
theorem writesStatus_withHandler {length : Nat} (pos : 1 ≤ length) {w : StatusWrite} {handler : State → State} {s : State}
    (pc : ∀ h, (handler h).pc = h.pc)
    (status : ∀ q, Flag.get .carry q = Flag.get .carry s.p →
      handler (s.fetchAdvance.setP q) = (handler s.fetchAdvance).setP (w.apply q)) :
    WritesStatus w (fun u => .next (withHandler length handler u)) s (withHandler length handler s) := by
  intro q carry
  have fetched : (s.setP q).fetchAdvance = s.fetchAdvance.setP q := rfl
  have next : withHandler length handler (s.setP q) = (withHandler length handler s).setP (w.apply q) := by
    rw [withHandler_of_pc (pc _) pos, withHandler_of_pc (pc _) pos, fetched, status q carry]
    rfl
  exact congrArg Host.Outcome.next next

section
variable {length : Nat} (pos : 1 ≤ length) (s : State)
include pos

theorem writesStatus_ldaWith {operand : State → Byte} (unread : ∀ h q, operand (h.setP q) = operand h) :
    WritesStatus (.zn (operand s.fetchAdvance)) (fun u => .next (withHandler length (fun h => ldaWith (operand h) h) u)) s
      (withHandler length (fun h => ldaWith (operand h) h) s) := by
  refine writesStatus_withHandler pos (fun _ => rfl) fun q _ => ?_
  rw [unread]
  rfl

theorem writesStatus_staTo {addr : State → Addr} (unread : ∀ h q, addr (h.setP q) = addr h) :
    WritesStatus .keep (fun u => .next (withHandler length (fun h => staTo (addr h) h) u)) s
      (withHandler length (fun h => staTo (addr h) h) s) := by
  refine writesStatus_withHandler pos (fun _ => rfl) fun q _ => ?_
  rw [unread]
  rfl

theorem writesStatus_adcWith {operand : State → Byte} (unread : ∀ h q, operand (h.setP q) = operand h) :
    WritesStatus (.adc (adcSum s.a (operand s.fetchAdvance) (Flag.get .carry s.p)))
      (fun u => .next (withHandler length (fun h => adcWith (operand h) h) u)) s
      (withHandler length (fun h => adcWith (operand h) h) s) := by
  refine writesStatus_withHandler pos (fun _ => rfl) fun q carry => ?_
  rw [unread, adcWith_eq, State.setP_p, carry]
  rfl

end

/-- Every instruction answers a state, reads no flag but Carry, and writes C and V only if it is an ADC. -/
theorem exec_writesStatus (i : Instr) (s : State) :
    ∃ w t, WritesStatus w (exec i) s t ∧ ∀ sum, w = .adc sum → handlerOfInstr i = .adc := by
  cases i
  case brk => exact ⟨.keep, halt s.fetchAdvance, fun _ _ => rfl, nofun⟩
  case tax => exact ⟨.zn s.a, _, writesStatus_withHandler (by decide) taxHandler_pc fun _ _ => rfl, nofun⟩
  case inx => exact ⟨.zn (s.x + 1), _, writesStatus_withHandler (by decide) inxHandler_pc fun _ _ => rfl, nofun⟩
  case adcIndirectX | adcZeroPage | adcImmediate | adcAbsolute | adcIndirectY | adcZeroPageX | adcAbsoluteY | adcAbsoluteX =>
    exact ⟨.adc _, _, writesStatus_adcWith (by decide) s fun _ _ => rfl, fun _ _ => rfl⟩
  case staIndirectX | staZeroPage | staAbsolute | staIndirectY | staZeroPageX | staAbsoluteY | staAbsoluteX =>
    exact ⟨.keep, _, writesStatus_staTo (by decide) s fun _ _ => rfl, nofun⟩
  case ldaIndirectX | ldaZeroPage | ldaImmediate | ldaAbsolute | ldaIndirectY | ldaZeroPageX | ldaAbsoluteY | ldaAbsoluteX =>
    exact ⟨.zn _, _, writesStatus_ldaWith (by decide) s fun _ _ => rfl, nofun⟩

/-- Every step answers a state, reads no flag but Carry, and writes C and V only where it runs an ADC (10_state.md R28). -/
theorem step_writesStatus (s : State) :
    ∃ w t, WritesStatus w step s t ∧
      ∀ sum, w = .adc sum → s.runState = .running ∧ ∃ i, s.fetch = some i ∧ handlerOfInstr i = .adc := by
  by_cases running : s.runState = .running
  · cases fetched : s.fetch with
    | none =>
      refine ⟨.keep, raise .unrecognizedOpcode (s.read s.pc) s, fun q _ => ?_, nofun⟩
      exact step_of_no_fetch (s := s.setP q) running fetched
    | some i =>
      obtain ⟨w, t, status, adc⟩ := exec_writesStatus i s
      refine ⟨w, t, fun q carry => ?_, fun sum eq => ⟨running, i, rfl, adc sum eq⟩⟩
      exact (step_of_fetch (s := s.setP q) running fetched).trans (status q carry)
  · exact ⟨.keep, s, fun q _ => step_of_not_running (s := s.setP q) running, nofun⟩

/-! ### The statements -/

theorem step_changes_carry_or_overflow {s t : State} (next : step s = .next t)
    (changed : Flag.get .carry t.p ≠ Flag.get .carry s.p ∨ Flag.get .overflow t.p ≠ Flag.get .overflow s.p) :
    s.runState = .running ∧ ∃ i, s.fetch = some i ∧ handlerOfInstr i = .adc := by
  obtain ⟨w, u, status, ran_adc⟩ := step_writesStatus s
  obtain rfl := status.status next
  obtain ⟨sum, rfl⟩ : ∃ sum, w = .adc sum := by
    obtain carry | overflow := changed
    · exact StatusWrite.eq_adc_of_changed (by decide) (by decide) carry
    · exact StatusWrite.eq_adc_of_changed (by decide) (by decide) overflow
  exact ran_adc sum rfl

theorem exec_adcOperand {i : Instr} {s : State} {op : Byte} (h : adcOperand i s = some op) :
    ∃ t, exec i s = .next t ∧ AddEffect op s t := by
  obtain ⟨op', t, operand, next, ⟨effect, -⟩⟩ := exec_of_adc (handler_of_adcOperand h) s
  obtain rfl := Option.some.inj (h.symm.trans operand)
  exact ⟨t, next, effect⟩

/-- Two states that differ only in flags other than Carry step to two states that differ only in P, where every flag is written alike or
kept. -/
theorem step_reads_only_carry {s s' t' : State} {q : Byte} (carry : Flag.get .carry s.p = Flag.get .carry q)
    (next : step s = .next s') (next_q : step (s.setP q) = .next t') :
    { s' with p := t'.p } = t' ∧ Flag.get .carry s'.p = Flag.get .carry t'.p ∧ ∀ g : Flag, FlagUnread g s.p s'.p q t'.p := by
  obtain ⟨w, u, status, -⟩ := step_writesStatus s
  obtain rfl := status.status next
  obtain rfl : u.setP (w.apply q) = t' := Host.Outcome.next.inj ((status q carry.symm).symm.trans next_q)
  exact ⟨rfl, w.get_apply_congr carry, fun g => w.flagUnread_apply g s.p q⟩

/-- Settles O19: what a step can do to P is `step_writesStatus`, and ADC's sum is `exec_of_adc`. -/
theorem carryOverflowOnlyByAdcOthersUnread : Obligations.CarryOverflowOnlyByAdcOthersUnread := by
  refine ⟨fun s t => step_changes_carry_or_overflow, fun i s adc => ?_, fun i s op => exec_adcOperand, ?_⟩
  · obtain ⟨op, -, operand, -, -⟩ := exec_of_adc adc s
    exact Option.isSome_of_eq_some operand
  · intro s t s' t' carry differ_in_p next_s next_t
    rw [← differ_in_p] at next_t
    exact step_reads_only_carry carry next_s next_t

/-- Settles O43: each flag of `ZN(v)` is given by `znByte_get`, and ZN writes P alone by its definition. -/
theorem znWritesZeroAndNegative : Obligations.ZnWritesZeroAndNegative := by
  intro s v
  have flags (g : Flag) : Flag.get g (s.zn v).p =
      if g = .negative then v.getLsbD 7 else if g = .zero then decide (v = 0x00) else Flag.get g s.p := znByte_get v s.p g
  refine ⟨?_, flags .negative, fun g zero negative => ?_, rfl⟩
  · simp [flags]
  · simp [flags, zero, negative]

end Sys2Proof.Machine
end

section
/-!
Proofs of 20_memory.md. Each addressing mode's address is said once in natural numbers, over any operand and any index, as
`BitVec.ofNat 16` of a number; the resolver's addresses are those at the byte and the word at PC.
-/

namespace Sys2Proof.Machine

/-! ### Addresses in natural numbers (R67 to R75) -/

@[simp] theorem byteAt_toNat (s : State) (addr : Addr) : byteAt s addr.toNat = s.read addr := by
  rw [byteAt, BitVec.ofNat_toNat, BitVec.setWidth_eq]

/-- ZeroPage: the byte itself (R68). -/
theorem zeroPage_eq_ofNat (b : Byte) : zeroPage b = BitVec.ofNat 16 b.toNat := (BitVec.ofNat_toNat 16 b).symm

/-- ZeroPage_X and ZeroPage_Y: the sum stays in page zero (R69, R70). -/
theorem zeroPageIndexed_eq_ofNat (b index : Byte) :
    zeroPageIndexed b index = BitVec.ofNat 16 ((b.toNat + index.toNat) % 256) := by
  rw [← BitVec.toNat_add, BitVec.ofNat_toNat, zeroPageIndexed]

/-- Absolute_X and Absolute_Y: the sum wraps at 65536 (R72, R73). -/
theorem absoluteIndexed_eq_ofNat (w : Addr) (index : Byte) :
    absoluteIndexed w index = BitVec.ofNat 16 ((w.toNat + index.toNat) % 65536) := by
  apply BitVec.eq_of_toNat_eq
  simp [absoluteIndexed]

/-- The byte a zero-page pointer names, where the pointer is a number modulo 256. -/
theorem read_zeroPage_eq_byteAt (s : State) (n : Nat) : s.read (zeroPage (BitVec.ofNat 8 n)) = byteAt s (n % 256) := by
  rw [zeroPage_eq_ofNat, BitVec.toNat_ofNat, byteAt]

/-- Both bytes of a pointer's word are in page zero, the second at the pointer plus 1 modulo 256 (R74, R75). -/
theorem pointerWord_ofNat_toNat (s : State) (n : Nat) : (pointerWord s (BitVec.ofNat 8 n)).toNat = zeroPageWord s n := by
  have next : BitVec.ofNat 8 n + 1 = BitVec.ofNat 8 (n + 1) := (BitVec.ofNat_add n 1).symm
  rw [pointerWord, wordOf_toNat, next, read_zeroPage_eq_byteAt, read_zeroPage_eq_byteAt, zeroPageWord]

/-- Indirect_X: the word at the operand byte plus X (R74). -/
theorem indirectX_eq_ofNat (b : Byte) (s : State) :
    indirectX b s = BitVec.ofNat 16 (zeroPageWord s (b.toNat + s.x.toNat)) := by
  have pointer : b + s.x = BitVec.ofNat 8 (b.toNat + s.x.toNat) := by simp [BitVec.ofNat_add]
  rw [indirectX, pointer, ← pointerWord_ofNat_toNat, BitVec.ofNat_toNat, BitVec.setWidth_eq]

/-- Indirect_Y: Y is added to the word at the operand byte, modulo 65536 (R75). -/
theorem indirectY_eq_ofNat (b : Byte) (s : State) :
    indirectY b s = BitVec.ofNat 16 ((zeroPageWord s b.toNat + s.y.toNat) % 65536) := by
  have pointer : b = BitVec.ofNat 8 b.toNat := by simp
  rw [indirectY, absoluteIndexed_eq_ofNat, ← pointerWord_ofNat_toNat, ← pointer]

/-! ### The statements -/

/-- Settles O47: the resolver passes each mode the byte or the word at PC, and that mode's `eq_ofNat` lemma gives the address. -/
theorem resolverAddresses : Obligations.ResolverAddresses := by
  intro s
  have nn : byteAt s s.pc.toNat = s.read s.pc := byteAt_toNat s s.pc
  have word : s.read16 s.pc = BitVec.ofNat 16 (s.read16 s.pc).toNat := by simp
  simp only [nn]
  exact ⟨rfl, congrArg some (zeroPage_eq_ofNat _), congrArg some (zeroPageIndexed_eq_ofNat _ _),
    congrArg some (zeroPageIndexed_eq_ofNat _ _), congrArg some word, congrArg some (absoluteIndexed_eq_ofNat _ _),
    congrArg some (absoluteIndexed_eq_ofNat _ _), congrArg some (indirectX_eq_ofNat _ _),
    congrArg some (indirectY_eq_ofNat _ _), (resolve_eq_none_iff _ s).2 rfl⟩

/-- Settles O44: what a byte reads after a write is `write_read_same` and `write_read_other`, and a write sets `mem` alone by its
definition. -/
theorem byteWriteReadsBack : Obligations.ByteWriteReadsBack := by
  intro s addr v wf
  exact ⟨State.write_read_same wf addr v, fun _ ne => State.write_read_other s ne v, rfl⟩

end Sys2Proof.Machine
end

section
/-!
Proofs of 41_load_store.md. A step whose handler goes through the resolver is said once, for any body: it is that body between the two
halves of a step where the mode has an address, and the raising of UnsupportedAddressingMode where it has none.
-/

namespace Sys2Proof.Machine

/-! ### A step whose handler resolves its mode -/

/-- The handler resolves its mode and, at the address it gets, runs `body` on the state it sees (40_dispatch.md R113, R116). -/
def RunsAtAddress (handler : Handler) (body : Addr → State → State) : Prop :=
  ∀ mode h, invoke handler mode h = withAddress mode h fun addr => body addr h

theorem lda_runsAtAddress : RunsAtAddress .lda fun addr h => ldaWith (h.read addr) h := fun _ _ => rfl

theorem sta_runsAtAddress : RunsAtAddress .sta staTo := fun _ _ => rfl

section
variable {c : Config} {s : State} {r : MetaRecord} {handler : Handler} {body : Addr → State → State}
variable (record : recordOf c (s.read s.pc) = some r) (bound : handlerOf c (s.read s.pc) = some handler)
variable (runs : RunsAtAddress handler body)
include record bound runs

/-- Where the resolver gives an address, the step is `body` at that address between step 1 and step 5 (R111). -/
theorem dispatchStep_of_address {addr : Addr} (resolved : resolve r.mode s.fetchAdvance = some addr) :
    dispatchStep c s = withHandler r.length (body addr) s := by
  have completed : invoke handler r.mode s.fetchAdvance = .completed (body addr s.fetchAdvance) := by
    rw [runs, withAddress, resolved]
  rw [dispatchStep_of_handler record bound, completed, withHandler]

/-- Where the resolver gives none, the step raises before anything is written (R116, 60_exceptions.md R204). -/
theorem dispatchStep_of_no_address (unresolved : resolve r.mode s.fetchAdvance = none) :
    dispatchStep c s = raise .unsupportedAddressingMode (s.read s.pc) s := by
  have raised : invoke handler r.mode s.fetchAdvance = .raised .unsupportedAddressingMode := by
    rw [runs, withAddress, unresolved]
  rw [dispatchStep_of_handler record bound, raised]

/-- In every mode: what `body` does at any address, a step does at the one the resolver gives; only the placeholder has none, and there
the step raises. -/
theorem dispatch_in_any_mode (wf : c.wf = true) (running : s.runState = .running) {Effect : Addr → State → Prop}
    (effect : ∀ addr, Effect addr (withHandler r.length (body addr) s)) :
    ∃ t, dispatch c s = .next t ∧
      match resolve r.mode s.fetchAdvance with
      | some addr => Effect addr t
      | none => r.mode = .noneAddressing ∧ Aborted .unsupportedAddressingMode s t := by
  refine ⟨_, dispatch_of_running wf running, ?_⟩
  cases resolved : resolve r.mode s.fetchAdvance with
  | some addr =>
    rw [dispatchStep_of_address record bound runs resolved]
    exact effect addr
  | none =>
    rw [dispatchStep_of_no_address record bound runs resolved]
    exact ⟨(resolve_eq_none_iff _ _).1 resolved, (raised_raise _ s).aborted⟩

end

/-! ### The statements -/

/-- Settles O24: LDA goes through the resolver, and its effect at any address is `withHandler_ldaWith`. -/
theorem ldaHandlerInAnyMode : Obligations.LdaHandlerInAnyMode := by
  intro c s r wf running record bound
  have pos : 1 ≤ r.length := (record_length wf record).1
  exact dispatch_in_any_mode record bound lda_runsAtAddress wf running
    fun addr => (withHandler_ldaWith pos s fun h => h.read addr).1

/-- Settles O27: STA goes through the resolver, and its effect at any address is `withHandler_staTo`. -/
theorem staHandlerInAnyMode : Obligations.StaHandlerInAnyMode := by
  intro c s r wf running canonical record bound
  have pos : 1 ≤ r.length := (record_length wf record).1
  exact dispatch_in_any_mode record bound sta_runsAtAddress wf running
    fun addr => (withHandler_staTo pos canonical fun _ => addr).1

end Sys2Proof.Machine
end

section
/-!
Proofs of 42_register_ops.md. A step whose handler never looks at its mode is said once, for any such handler: it is that handler between
the two halves of a step, so no mode makes it raise.
-/

namespace Sys2Proof.Machine

/-! ### A step whose handler does not use its mode -/

/-- Invoked with any mode, the handler completes with `body` of the state it sees (40_dispatch.md R113). -/
def RunsInEveryMode (handler : Handler) (body : State → State) : Prop :=
  ∀ mode h, invoke handler mode h = .completed (body h)

theorem tax_runsInEveryMode : RunsInEveryMode .tax taxHandler := fun _ _ => rfl

theorem inx_runsInEveryMode : RunsInEveryMode .inx inxHandler := fun _ _ => rfl

/-- The step is `body` between step 1 and step 5 (R111), and the record gives it nothing but its length. -/
theorem dispatch_of_runsInEveryMode {c : Config} {s : State} {r : MetaRecord} {handler : Handler} {body : State → State}
    (runs : RunsInEveryMode handler body) (wf : c.wf = true) (running : s.runState = .running)
    (record : recordOf c (s.read s.pc) = some r) (bound : handlerOf c (s.read s.pc) = some handler) :
    dispatch c s = .next (withHandler r.length body s) := by
  rw [dispatch_of_running wf running, dispatchStep_of_handler record bound, runs, withHandler]

/-! ### The statement -/

/-- Settles O37: neither handler uses its mode, and their effects are `withHandler_taxHandler` and `withHandler_inxHandler`. -/
theorem taxInxIgnoreTheMode : Obligations.TaxInxIgnoreTheMode := by
  intro c s r wf running record
  have pos : 1 ≤ r.length := (record_length wf record).1
  refine ⟨fun bound => ?tax, fun bound => ?inx⟩
  case tax =>
    exact ⟨_, dispatch_of_runsInEveryMode tax_runsInEveryMode wf running record bound, (withHandler_taxHandler pos s).1⟩
  case inx =>
    exact ⟨_, dispatch_of_runsInEveryMode inx_runsInEveryMode wf running record bound, (withHandler_inxHandler pos s).1⟩

end Sys2Proof.Machine
end

section
/-!
Proofs of 43_arithmetic.md. ADC goes through the resolver as LDA and STA do, so `dispatch_in_any_mode` covers it too.
-/

namespace Sys2Proof.Machine

theorem adc_runsAtAddress : RunsAtAddress .adc fun addr h => adcWith (h.read addr) h := fun _ _ => rfl

/-- Settles O31: ADC goes through the resolver, and its effect at any address is `withHandler_adcWith`. -/
theorem adcHandlerInAnyMode : Obligations.AdcHandlerInAnyMode := by
  intro c s r wf running record bound
  have pos : 1 ≤ r.length := (record_length wf record).1
  exact dispatch_in_any_mode record bound adc_runsAtAddress wf running
    fun addr => (withHandler_adcWith pos s fun h => h.read addr).1

end Sys2Proof.Machine
end

section
/-!
Proofs of 60_exceptions.md. Which bytes make a step raise UnsupportedAddressingMode is named once, as `ResolvesPlaceholder`; a step raises it
at those and at no others, and the defaults have none.
-/

namespace Sys2Proof.Machine

/-! ### The bytes at which a placeholder mode is resolved -/

/-- The byte's handler goes through the resolver and its record has the placeholder mode (60_exceptions.md R204). -/
def ResolvesPlaceholder (c : Config) (op : Byte) : Prop :=
  ∃ r h, recordOf c op = some r ∧ handlerOf c op = some h ∧
    r.mode = .noneAddressing ∧ (h = .lda ∨ h = .sta ∨ h = .adc)

section
variable {c : Config} {s : State}

theorem dispatchStep_of_resolvesPlaceholder (h : ResolvesPlaceholder c (s.read s.pc)) :
    dispatchStep c s = raise .unsupportedAddressingMode (s.read s.pc) s := by
  obtain ⟨r, handler, record, bound, placeholder, resolver⟩ := h
  have unresolved : resolve r.mode s.fetchAdvance = none := (resolve_eq_none_iff _ _).2 placeholder
  obtain rfl | rfl | rfl := resolver
  · exact dispatchStep_of_no_address record bound lda_runsAtAddress unresolved
  · exact dispatchStep_of_no_address record bound sta_runsAtAddress unresolved
  · exact dispatchStep_of_no_address record bound adc_runsAtAddress unresolved

/-- A missing record and a missing handler raise another kind, and a handler that halts or completes raises nothing (40_dispatch.md R117). -/
theorem resolvesPlaceholder_of_faulted (running : s.runState = .running) {opcode : Byte} {pc : Addr}
    (faulted : (dispatchStep c s).runState = .faulted .unsupportedAddressingMode opcode pc) :
    ResolvesPlaceholder c (s.read s.pc) := by
  cases record : recordOf c (s.read s.pc) with
  | none => simp [dispatchStep_of_no_record record] at faulted
  | some r =>
    cases bound : handlerOf c (s.read s.pc) with
    | none => simp [dispatchStep_of_no_handler record bound] at faulted
    | some handler =>
      rw [dispatchStep_of_handler record bound] at faulted
      obtain ⟨placeholder, resolver, -⟩ | ⟨-, halted⟩ | ⟨-, t, completed, pc_kept, -, runState_kept⟩ :=
        invoke_cases handler r.mode s.fetchAdvance
      · exact ⟨r, handler, record, bound, placeholder, resolver⟩
      · simp [halted] at faulted
      · rw [completed] at faulted
        have still_running : (skipOperands s.fetchAdvance.pc r.length t).runState = .running := by
          rw [skipOperands_of_eq pc_kept, State.setPc_runState, runState_kept, State.fetchAdvance_runState, running]
        exact RunState.noConfusion (still_running.symm.trans faulted)

end

/-- Under META_DEFAULT only BRK, TAX and INX have a placeholder mode (30_encoding.md R86). -/
theorem handlerOf_of_placeholder_default : ∀ e ∈ metaDefault, e.2.mode = .noneAddressing →
    handlerOf Config.default e.1 ∈ [some .brk, some .tax, some .inx] := by decide

theorem not_resolvesPlaceholder_default (op : Byte) : ¬ ResolvesPlaceholder Config.default op := by
  rintro ⟨r, handler, record, bound, placeholder, resolver⟩
  obtain ⟨before, after, split, -⟩ := List.lookup_eq_some_iff.1 record
  have listed : (op, r) ∈ Config.default.metadata := by simp [split]
  have unresolving := handlerOf_of_placeholder_default _ listed placeholder
  rw [bound] at unresolving
  obtain rfl | rfl | rfl := resolver <;> simp at unresolving

/-! ### The statement -/

/-- Settles O16: a step raises this kind exactly where `ResolvesPlaceholder` holds, which under the defaults is nowhere. -/
theorem unsupportedModeRaisedByResolversOnly : Obligations.UnsupportedModeRaisedByResolversOnly := by
  refine ⟨fun c s wf running => ⟨?raised, ?resolves⟩, fun s t opcode pc running next faulted => ?default⟩
  case raised =>
    rintro ⟨t, opcode, pc, next, faulted⟩
    obtain ⟨-, rfl⟩ := eq_dispatchStep_of_next running next
    exact resolvesPlaceholder_of_faulted running faulted
  case resolves =>
    intro resolves
    refine ⟨_, s.read s.pc, s.pc, dispatch_of_running wf running, ?_⟩
    rw [dispatchStep_of_resolvesPlaceholder resolves, raise_runState]
  case default =>
    obtain ⟨-, rfl⟩ := eq_dispatchStep_of_next running next
    exact not_resolvesPlaceholder_default _ (resolvesPlaceholder_of_faulted running faulted)

end Sys2Proof.Machine
end

section
/-!
Proofs of 30_encoding.md. The opcode byte leads to the form of its row, and a form takes exactly its instruction's operand bytes: said once
in each direction, as `opcodeForm_opcode` and `assemble_eq_some`.
-/

namespace Sys2Proof.Machine

/-! ### The two directions of the table -/

/-- The row of an instruction's opcode byte takes that instruction's operand bytes and gives it back (30_encoding.md R81, R82, R86). -/
theorem opcodeForm_opcode (i : Instr) :
    ∃ form, opcodeForm i.opcode = some form ∧ ∀ rest, form.assemble (i.operandBytes ++ rest) = some (i, rest) := by
  cases i
  case brk | tax | inx => exact ⟨_, rfl, fun _ => rfl⟩
  case adcAbsolute w | adcAbsoluteY w | adcAbsoluteX w | staAbsolute w | staAbsoluteY w | staAbsoluteX w | ldaAbsolute w
      | ldaAbsoluteY w | ldaAbsoluteX w =>
    exact ⟨_, rfl, fun rest => by simp [Instr.operandBytes, Form.assemble]⟩
  all_goals exact ⟨_, rfl, fun _ => rfl⟩

/-- Whatever operand a form is given, the instruction has the opcode byte `op` and is written with that operand. -/
def Form.WritesBack (op : Byte) : Form → Prop
  | .implied i => i.opcode = op ∧ i.operandBytes = []
  | .byteOperand f => ∀ b, (f b).opcode = op ∧ (f b).operandBytes = [b]
  | .wordOperand f => ∀ w, (f w).opcode = op ∧ (f w).operandBytes = [lowByte w, highByte w]

theorem writesBack_of_opcodeForm {op : Byte} {form : Form} (row : opcodeForm op = some form) : Form.WritesBack op form := by
  unfold opcodeForm at row
  split at row <;> cases row
  -- the rows of BRK, TAX and INX
  case h_1 | h_20 | h_26 => exact ⟨rfl, rfl⟩
  all_goals exact fun _ => ⟨rfl, rfl⟩

/-- What a form takes is the operand bytes of what it gives. -/
theorem Form.WritesBack.assemble_eq_some {op : Byte} {form : Form} (back : Form.WritesBack op form) {more rest : List Byte} {i : Instr}
    (taken : form.assemble more = some (i, rest)) : i.opcode = op ∧ more = i.operandBytes ++ rest := by
  unfold Form.assemble at taken
  split at taken <;> cases taken
  · exact ⟨back.1, by rw [back.2]; rfl⟩
  · exact ⟨(back _).1, by rw [(back _).2]; rfl⟩
  · exact ⟨(back _).1, by rw [(back _).2, lowByte_wordOf, highByte_wordOf]; rfl⟩

/-- What a decoder that answers has done: it has found the row of the first byte and taken an operand from the rest. -/
theorem decode_eq_ok_iff {bytes rest : List Byte} {i : Instr} :
    decode bytes = .ok (i, rest) ↔
      ∃ op more form, bytes = op :: more ∧ opcodeForm op = some form ∧ form.assemble more = some (i, rest) := by
  cases bytes with
  | nil => simp [decode]
  | cons op more =>
    cases row : opcodeForm op with
    | none => simp [decode, row]
    | some form => cases taken : form.assemble more <;> simp [decode, row, taken]

theorem decode_opcode_eq {op : Byte} {more rest : List Byte} {i : Instr} (decoded : decode (op :: more) = .ok (i, rest)) :
    i.opcode = op ∧ more = i.operandBytes ++ rest := by
  obtain ⟨_, _, form, split, row, taken⟩ := decode_eq_ok_iff.1 decoded
  cases split
  exact (writesBack_of_opcodeForm row).assemble_eq_some taken

/-! ### The record and the handler of an instruction's opcode byte -/

/-- The addressing mode of an instruction (30_encoding.md R86). -/
def Instr.mode : Instr → AddrMode
  | .brk | .tax | .inx => .noneAddressing
  | .adcImmediate _ | .ldaImmediate _ => .immediate
  | .adcZeroPage _ | .staZeroPage _ | .ldaZeroPage _ => .zeroPage
  | .adcZeroPageX _ | .staZeroPageX _ | .ldaZeroPageX _ => .zeroPageX
  | .adcAbsolute _ | .staAbsolute _ | .ldaAbsolute _ => .absolute
  | .adcAbsoluteX _ | .staAbsoluteX _ | .ldaAbsoluteX _ => .absoluteX
  | .adcAbsoluteY _ | .staAbsoluteY _ | .ldaAbsoluteY _ => .absoluteY
  | .adcIndirectX _ | .staIndirectX _ | .ldaIndirectX _ => .indirectX
  | .adcIndirectY _ | .staIndirectY _ | .ldaIndirectY _ => .indirectY

/-- META_DEFAULT holds every instruction's length and mode at its opcode byte (R86). -/
theorem recordOf_opcode (i : Instr) :
    ∃ r, recordOf Config.default i.opcode = some r ∧ r.length = i.length ∧ r.mode = Instr.mode i := by
  cases i <;> exact ⟨_, rfl, rfl, rfl⟩

/-- The default HANDLERS hold every instruction's handler at its opcode byte (R86). -/
theorem handlerOf_opcode (i : Instr) : handlerOf Config.default i.opcode = some (handlerOfInstr i) := by
  cases i <;> rfl

/-! ### The statements -/

/-- Settles O2: the opcode byte leads to a form that takes the operand bytes, by `opcodeForm_opcode`. -/
theorem decodeEncodeRoundTrip : Obligations.DecodeEncodeRoundTrip := by
  intro i rest
  obtain ⟨form, row, taken⟩ := opcodeForm_opcode i
  exact decode_eq_ok_iff.2 ⟨_, _, form, rfl, row, taken rest⟩

/-- Settles O3: the first byte is the opcode byte and the form took the operand bytes, by `decode_opcode_eq`. -/
theorem decodedBytesAreTheEncoding : Obligations.DecodedBytesAreTheEncoding := by
  intro bytes rest i decoded
  cases bytes with
  | nil => exact nomatch decoded
  | cons op more =>
    obtain ⟨rfl, rfl⟩ := decode_opcode_eq decoded
    rfl

/-- Settles O4: both instructions have the same opcode byte, and the defaults hold the length and the handler by that byte. -/
theorem opcodeByteFixesLength : Obligations.OpcodeByteFixesLength := by
  intro op rest₁ rest₂ left₁ left₂ i j decoded_i decoded_j
  have same : i.opcode = j.opcode := (decode_opcode_eq decoded_i).1.trans (decode_opcode_eq decoded_j).1.symm
  obtain ⟨r, record_i, length_i, -⟩ := recordOf_opcode i
  obtain ⟨r', record_j, length_j, -⟩ := recordOf_opcode j
  have handler_i := handlerOf_opcode i
  rw [same] at record_i handler_i
  obtain rfl : r = r' := Option.some.inj (record_i.symm.trans record_j)
  exact ⟨length_i.symm.trans length_j, Option.some.inj (handler_i.symm.trans (handlerOf_opcode j))⟩

/-- Settles O1: each word written out is an instruction's encoding, so the round trip decodes it. -/
theorem decodesWrittenWords : Obligations.DecodesWrittenWords :=
  ⟨decodeEncodeRoundTrip .brk [], decodeEncodeRoundTrip .tax [], decodeEncodeRoundTrip .inx [],
    decodeEncodeRoundTrip (.ldaImmediate 0x80) [], decodeEncodeRoundTrip (.ldaIndirectY 0x12) [],
    decodeEncodeRoundTrip (.staAbsolute 0x1234) [], decodeEncodeRoundTrip (.adcAbsoluteY 0x0300) [],
    decodeEncodeRoundTrip (.adcIndirectX 0x20) []⟩

end Sys2Proof.Machine
end

section
/-!
Proofs of the rules on one instruction (41_load_store.md to 44_control.md). What an instruction can do is said once: `Executed` has a case for
each way one ends, `exec_executed` says that every instruction ends in one of them, and the completions and frames are read off it.
-/

namespace Sys2Proof.Machine

/-! ### What an instruction can do -/

@[simp] theorem ldaWith_mem (v : Byte) (h : State) : (ldaWith v h).mem = h.mem := rfl
@[simp] theorem adcWith_mem (op : Byte) (h : State) : (adcWith op h).mem = h.mem := rfl
@[simp] theorem taxHandler_mem (h : State) : (taxHandler h).mem = h.mem := rfl
@[simp] theorem inxHandler_mem (h : State) : (inxHandler h).mem = h.mem := rfl

/-- A handler that writes neither memory nor PC leaves memory in a whole step (40_dispatch.md R114). -/
theorem withHandler_mem {length : Nat} (pos : 1 ≤ length) {handler : State → State} (pc : ∀ h, (handler h).pc = h.pc)
    (mem : ∀ h, (handler h).mem = h.mem) (s : State) : (withHandler length handler s).mem = s.mem := by
  rw [withHandler_of_pc (pc _) pos, State.setPc_mem, mem, State.fetchAdvance_mem]

/-- A whole step of STA writes one byte and PC, whatever the form of the memory (41_load_store.md R140). -/
theorem withHandler_staTo_eq {length : Nat} (pos : 1 ≤ length) (s : State) (addr : State → Addr) :
    withHandler length (fun h => staTo (addr h) h) s =
      (s.write (addr s.fetchAdvance) s.a).setPc (s.pc + BitVec.ofNat 16 length) :=
  withHandler_of_pc rfl pos

/-- The ways an instruction ends. Reading alike does not make memories equal, so each way but STA's says that too. -/
inductive Executed (i : Instr) (s : State) : State → Prop where
  | loaded {v : Byte} {t : State} (handler : handlerOfInstr i = .lda) (effect : Loaded i.length v s t) (mem : t.mem = s.mem) :
      Executed i s t
  | stored {addr : Addr} (handler : handlerOfInstr i = .sta) (store : storeAddress i s = some addr) :
      Executed i s ((s.write addr s.a).setPc (s.pc + BitVec.ofNat 16 i.length))
  | added {op : Byte} {t : State} (handler : handlerOfInstr i = .adc) (effect : Added i.length op s t) (mem : t.mem = s.mem) :
      Executed i s t
  | wroteX {v : Nat} {t : State} (handler : handlerOfInstr i = .tax ∨ handlerOfInstr i = .inx) (effect : WroteX i.length v s t)
      (mem : t.mem = s.mem) : Executed i s t
  | halted {t : State} (handler : handlerOfInstr i = .brk) (effect : HaltedAtBrk s t) (mem : t.mem = s.mem) : Executed i s t

/-- Every instruction answers a state, in every state and for every operand. -/
theorem exec_executed (i : Instr) (s : State) : ∃ t, exec i s = .next t ∧ Executed i s t := by
  have pos := Instr.length_pos i
  cases i
  case brk => exact ⟨_, rfl, .halted rfl (haltedAtBrk_halt s) rfl⟩
  case tax => exact ⟨_, rfl, .wroteX (.inl rfl) (withHandler_taxHandler pos s) (withHandler_mem pos taxHandler_pc taxHandler_mem s)⟩
  case inx => exact ⟨_, rfl, .wroteX (.inr rfl) (withHandler_inxHandler pos s) (withHandler_mem pos inxHandler_pc inxHandler_mem s)⟩
  case adcIndirectX | adcZeroPage | adcImmediate | adcAbsolute | adcIndirectY | adcZeroPageX | adcAbsoluteY | adcAbsoluteX =>
    exact ⟨_, rfl, .added rfl (withHandler_adcWith pos s _) (withHandler_mem pos (fun h => adcWith_pc _ h) (fun h => adcWith_mem _ h) s)⟩
  case staIndirectX | staZeroPage | staAbsolute | staIndirectY | staZeroPageX | staAbsoluteY | staAbsoluteX =>
    exact ⟨_, congrArg Host.Outcome.next (withHandler_staTo_eq pos s _), .stored rfl rfl⟩
  case ldaIndirectX | ldaZeroPage | ldaImmediate | ldaAbsolute | ldaIndirectY | ldaZeroPageX | ldaAbsoluteY | ldaAbsoluteX =>
    exact ⟨_, rfl, .loaded rfl (withHandler_ldaWith pos s _) (withHandler_mem pos (fun h => ldaWith_pc _ h) (fun h => ldaWith_mem _ h) s)⟩

theorem executed_of_next {i : Instr} {s t : State} (next : exec i s = .next t) : Executed i s t := by
  obtain ⟨u, next', executed⟩ := exec_executed i s
  obtain rfl : t = u := Host.Outcome.next.inj (next.symm.trans next')
  exact executed

section
variable {i : Instr} {s t : State}

/-- Every instruction but BRK moves PC on by its length and goes on (40_dispatch.md R114); BRK halts (44_control.md R190). -/
theorem Executed.completes (executed : Executed i s t) :
    if handlerOfInstr i = .brk then HaltedAtBrk s t else Advanced i.length s t ∧ t.runState = s.runState := by
  cases executed with
  | loaded handler effect =>
    obtain ⟨⟨-, -, -, -, runState, -⟩, advanced⟩ := effect
    simp [handler, advanced, runState]
  | stored handler =>
    simp [handler, advanced_setPc]
  | added handler effect =>
    obtain ⟨⟨-, -, -, -, -, -, -, -, runState, -⟩, advanced⟩ := effect
    simp [handler, advanced, runState]
  | wroteX handler effect =>
    obtain ⟨⟨-, -, -, -, runState, -⟩, advanced⟩ := effect
    obtain handler | handler := handler <;> simp [handler, advanced, runState]
  | halted handler effect => simpa [handler] using effect

/-- An instruction ends with the run halted or with the run state it began with. -/
theorem Executed.runState (executed : Executed i s t) : t.runState = .halted ∨ t.runState = s.runState := by
  have completes := executed.completes
  split at completes
  · exact .inl completes.1
  · exact .inr completes.2

/-- Memory is as before, but for the one byte an STA stores (20_memory.md R58). -/
theorem Executed.mem (executed : Executed i s t) :
    t.mem = s.mem ∨ ∃ addr, storeAddress i s = some addr ∧ t.mem = (s.write addr s.a).mem := by
  cases executed with
  | loaded _ _ mem | added _ _ mem | wroteX _ _ mem | halted _ _ mem => exact .inl mem
  | stored _ store => exact .inr ⟨_, store, rfl⟩

/-- No instruction writes Y (10_state.md R24). -/
theorem Executed.y (executed : Executed i s t) : t.y = s.y := by
  cases executed with
  | loaded _ effect => obtain ⟨⟨-, -, -, y, -⟩, -⟩ := effect; exact y
  | stored => rfl
  | added _ effect => obtain ⟨⟨-, -, -, -, -, -, -, y, -⟩, -⟩ := effect; exact y
  | wroteX _ effect => obtain ⟨⟨-, -, -, y, -⟩, -⟩ := effect; exact y
  | halted _ effect => obtain ⟨-, -, -, -, y, -⟩ := effect; exact y

/-- Only ADC writes C and V, and no instruction writes a flag other than C, V, Z and N (10_state.md R25, R28). -/
theorem Executed.flag_kept (executed : Executed i s t) {g : Flag} (zero : g ≠ .zero) (negative : g ≠ .negative)
    (adc : handlerOfInstr i = .adc → g ≠ .carry ∧ g ≠ .overflow) : Flag.get g t.p = Flag.get g s.p := by
  cases executed with
  | loaded _ effect =>
    obtain ⟨⟨-, ⟨-, -, kept⟩, -⟩, -⟩ := effect
    exact kept g zero negative
  | stored => rfl
  | added handler effect =>
    obtain ⟨⟨-, -, -, -, -, kept, -⟩, -⟩ := effect
    obtain ⟨carry, overflow⟩ := adc handler
    exact kept g carry overflow zero negative
  | wroteX _ effect =>
    obtain ⟨⟨-, ⟨-, -, kept⟩, -⟩, -⟩ := effect
    exact kept g zero negative
  | halted _ effect =>
    obtain ⟨-, -, -, -, -, p, -⟩ := effect
    rw [p]

theorem Executed.sameMemory (executed : Executed i s t) (handler : handlerOfInstr i ≠ .sta) : SameMemory s t := by
  obtain mem | ⟨addr, store, -⟩ := executed.mem
  · intro at_
    rw [State.read, mem, State.read]
  · exact absurd (handler_of_storeAddress store) handler

end

/-! ### The statements on completion -/

/-- Settles O18: `Executed.completes` for the state the instruction answers. -/
theorem everyInstructionCompletes : Obligations.EveryInstructionCompletes := by
  intro i s
  obtain ⟨t, next, executed⟩ := exec_executed i s
  exact ⟨t, next, executed.completes⟩

/-- Settles O22: each form is `withHandler_ldaWith` with its own way of reaching the operand. -/
theorem ldaFormsComplete : Obligations.LdaFormsComplete := by
  intro s b w
  exact ⟨⟨_, rfl, withHandler_ldaWith (by decide) s fun _ => b⟩,
    ⟨_, rfl, withHandler_ldaWith (by decide) s fun h => h.read (zeroPage b)⟩,
    ⟨_, rfl, withHandler_ldaWith (by decide) s fun h => h.read (zeroPageIndexed b h.x)⟩,
    ⟨_, rfl, withHandler_ldaWith (by decide) s fun h => h.read w⟩,
    ⟨_, rfl, withHandler_ldaWith (by decide) s fun h => h.read (absoluteIndexed w h.x)⟩,
    ⟨_, rfl, withHandler_ldaWith (by decide) s fun h => h.read (absoluteIndexed w h.y)⟩,
    ⟨_, rfl, withHandler_ldaWith (by decide) s fun h => h.read (indirectX b h)⟩,
    ⟨_, rfl, withHandler_ldaWith (by decide) s fun h => h.read (indirectY b h)⟩⟩

/-- Settles O25: each form is `withHandler_staTo` with its own address. -/
theorem staFormsComplete : Obligations.StaFormsComplete := by
  intro s b w canonical
  exact ⟨⟨_, rfl, withHandler_staTo (by decide) canonical fun _ => zeroPage b⟩,
    ⟨_, rfl, withHandler_staTo (by decide) canonical fun h => zeroPageIndexed b h.x⟩,
    ⟨_, rfl, withHandler_staTo (by decide) canonical fun _ => w⟩,
    ⟨_, rfl, withHandler_staTo (by decide) canonical fun h => absoluteIndexed w h.x⟩,
    ⟨_, rfl, withHandler_staTo (by decide) canonical fun h => absoluteIndexed w h.y⟩,
    ⟨_, rfl, withHandler_staTo (by decide) canonical fun h => indirectX b h⟩,
    ⟨_, rfl, withHandler_staTo (by decide) canonical fun h => indirectY b h⟩⟩

/-- Settles O29: each form is `withHandler_adcWith` with its own way of reaching the operand. -/
theorem adcFormsComplete : Obligations.AdcFormsComplete := by
  intro s b w
  exact ⟨⟨_, rfl, withHandler_adcWith (by decide) s fun _ => b⟩,
    ⟨_, rfl, withHandler_adcWith (by decide) s fun h => h.read (zeroPage b)⟩,
    ⟨_, rfl, withHandler_adcWith (by decide) s fun h => h.read (zeroPageIndexed b h.x)⟩,
    ⟨_, rfl, withHandler_adcWith (by decide) s fun h => h.read w⟩,
    ⟨_, rfl, withHandler_adcWith (by decide) s fun h => h.read (absoluteIndexed w h.x)⟩,
    ⟨_, rfl, withHandler_adcWith (by decide) s fun h => h.read (absoluteIndexed w h.y)⟩,
    ⟨_, rfl, withHandler_adcWith (by decide) s fun h => h.read (indirectX b h)⟩,
    ⟨_, rfl, withHandler_adcWith (by decide) s fun h => h.read (indirectY b h)⟩⟩

/-- Settles O35: the two handlers' effects in a step. -/
theorem taxInxComplete : Obligations.TaxInxComplete := by
  intro s
  exact ⟨⟨_, rfl, withHandler_taxHandler (by decide) s⟩, ⟨_, rfl, withHandler_inxHandler (by decide) s⟩⟩

/-- Settles O38: `haltedAtBrk_halt`. -/
theorem brkHalts : Obligations.BrkHalts := by
  intro s
  exact ⟨_, rfl, haltedAtBrk_halt s⟩

/-! ### The statements on frames -/

/-- Settles O41: memory, Y, the flags and the run state are `Executed`'s own lemmas; A and X are read off its cases. -/
theorem nonStoringFrame : Obligations.NonStoringFrame := by
  intro i s t not_sta next
  have executed := executed_of_next next
  have completes := executed.completes
  refine ⟨executed.sameMemory not_sta, executed.y, fun not_lda not_adc => ?a, fun not_tax not_inx => ?x, fun brk => ?p,
    fun g zero negative adc => executed.flag_kept zero negative adc, fun not_brk => ?runState⟩
  case a =>
    cases executed with
    | loaded handler => exact absurd handler not_lda
    | stored handler => exact absurd handler not_sta
    | added handler => exact absurd handler not_adc
    | wroteX _ effect => obtain ⟨⟨-, -, a, -⟩, -⟩ := effect; exact a
    | halted _ effect => obtain ⟨-, -, a, -⟩ := effect; exact a
  case x =>
    cases executed with
    | loaded _ effect => obtain ⟨⟨-, -, x, -⟩, -⟩ := effect; exact x
    | stored handler => exact absurd handler not_sta
    | added _ effect => obtain ⟨⟨-, -, -, -, -, -, x, -⟩, -⟩ := effect; exact x
    | wroteX handler => exact (handler.elim not_tax not_inx).elim
    | halted _ effect => obtain ⟨-, -, -, x, -⟩ := effect; exact x
  case p =>
    rw [if_pos brk] at completes
    obtain ⟨-, -, -, -, -, p, -⟩ := completes
    exact p
  case runState =>
    rw [if_neg not_brk] at completes
    exact completes.2

/-- Settles O42: STA writes PC and the byte at its address, and a write changes no other byte. -/
theorem storingFrame : Obligations.StoringFrame := by
  intro i s t sta next
  obtain ⟨addr, store, stored⟩ := exec_of_sta sta s
  rw [withHandler_staTo_eq (Instr.length_pos i)] at stored
  obtain rfl := Host.Outcome.next.inj (stored.symm.trans next)
  refine ⟨rfl, rfl, rfl, rfl, rfl, ⟨addr, store⟩, fun addr' store' other ne => ?_⟩
  obtain rfl := Option.some.inj (store.symm.trans store')
  exact State.write_read_other s ne s.a

end Sys2Proof.Machine
end

section
/-!
Proofs of 40_dispatch.md and 60_exceptions.md. Two facts carry them: what a step of the model can do (`Stepped`, over `Executed`), and that the
instruction fetched has the operand the resolver reads at PC, so that `exec` is the dispatcher's own step (`exec_eq_dispatchStep`).
-/

namespace Sys2Proof.Machine

/-! ### What the fetch gives -/

theorem fetch_eq_some_iff {s : State} {i : Instr} : s.fetch = some i ↔ ∃ rest, decode s.fetchBytes = .ok (i, rest) := by
  unfold State.fetch
  split <;> simp_all

/-- The instruction fetched has its opcode byte at PC and its operand bytes after it (30_encoding.md R80, R81). -/
theorem fetch_bytes {s : State} {i : Instr} (fetched : s.fetch = some i) :
    i.opcode = s.read s.pc ∧ ∃ rest, [s.read (s.pc + 1), s.read (s.pc + 2)] = i.operandBytes ++ rest := by
  obtain ⟨rest, decoded⟩ := fetch_eq_some_iff.1 fetched
  obtain ⟨opcode, operands⟩ := decode_opcode_eq decoded
  exact ⟨opcode, rest, operands⟩

theorem State.read16_fetched (s : State) : s.read16 (s.pc + 1) = wordOf (s.read (s.pc + 1)) (s.read (s.pc + 2)) := by
  have next : s.pc + 1 + 1 = s.pc + 2 := BitVec.add_assoc s.pc 1 1
  rw [State.read16, next]

theorem fetched_byte {s : State} {i : Instr} {b : Byte} (fetched : s.fetch = some i) (operand : i.operandBytes = [b]) :
    s.read (s.pc + 1) = b := by
  obtain ⟨-, rest, bytes⟩ := fetch_bytes fetched
  rw [operand] at bytes
  exact (List.cons.inj bytes).1

theorem fetched_word {s : State} {i : Instr} {w : Addr} (fetched : s.fetch = some i)
    (operand : i.operandBytes = [lowByte w, highByte w]) : s.read16 (s.pc + 1) = w := by
  obtain ⟨-, rest, bytes⟩ := fetch_bytes fetched
  rw [operand] at bytes
  simp only [List.cons_append, List.nil_append, List.cons.injEq] at bytes
  obtain ⟨low, high, -⟩ := bytes
  rw [State.read16_fetched, low, high, wordOf_lowByte_highByte]

/-! ### What a step can do -/

/-- The ways a step ends: no run is in progress and the state is kept, no instruction is fetched and UnrecognizedOpcode is raised, or the
instruction fetched is run. -/
inductive Stepped (s : State) : State → Prop where
  | kept (idle : s.runState ≠ .running) : Stepped s s
  | raised (running : s.runState = .running) (no_fetch : s.fetch = none) :
      Stepped s (raise .unrecognizedOpcode (s.read s.pc) s)
  | ran {i : Instr} {t : State} (running : s.runState = .running) (fetched : s.fetch = some i) (executed : Executed i s t) :
      Stepped s t

/-- Every step answers a state. -/
theorem step_stepped (s : State) : ∃ t, step s = .next t ∧ Stepped s t := by
  by_cases running : s.runState = .running
  · cases fetched : s.fetch with
    | none => exact ⟨_, step_of_no_fetch running fetched, .raised running fetched⟩
    | some i =>
      obtain ⟨t, next, executed⟩ := exec_executed i s
      exact ⟨t, (step_of_fetch running fetched).trans next, .ran running fetched executed⟩
  · exact ⟨s, step_of_not_running running, .kept running⟩

theorem stepped_of_next {s t : State} (next : step s = .next t) : Stepped s t := by
  obtain ⟨u, next', stepped⟩ := step_stepped s
  obtain rfl : t = u := Host.Outcome.next.inj (next.symm.trans next')
  exact stepped

/-! ### `exec` is the dispatcher's own step -/

/-- The dispatcher takes no step while no run is in progress (R110). -/
theorem dispatch_of_not_running {c : Config} {s : State} (wf : c.wf = true) (idle : s.runState ≠ .running) :
    dispatch c s = .next s := by
  rw [dispatch, if_pos wf]
  split
  · contradiction
  all_goals rfl

/-- The operand the decoder gives an instruction is the one the resolver reads at PC, so a step of the dispatcher under the defaults runs the
same handler on the same operand (log 9). -/
theorem exec_eq_dispatchStep {s : State} {i : Instr} (fetched : s.fetch = some i) :
    exec i s = .next (dispatchStep Config.default s) := by
  obtain ⟨opcode, -⟩ := fetch_bytes fetched
  obtain ⟨r, record, length, mode⟩ := recordOf_opcode i
  have handler := handlerOf_opcode i
  rw [opcode] at record handler
  rw [dispatchStep_of_handler record handler, length, mode]
  cases i
  case brk | tax | inx => rfl
  case adcAbsolute w | adcAbsoluteY w | adcAbsoluteX w | staAbsolute w | staAbsoluteY w | staAbsoluteX w | ldaAbsolute w
      | ldaAbsoluteY w | ldaAbsoluteX w =>
    obtain rfl : s.read16 (s.pc + 1) = w := fetched_word fetched rfl
    rfl
  case adcIndirectX b | adcZeroPage b | adcImmediate b | adcIndirectY b | adcZeroPageX b | staIndirectX b | staZeroPage b
      | staIndirectY b | staZeroPageX b | ldaIndirectX b | ldaZeroPage b | ldaImmediate b | ldaIndirectY b | ldaZeroPageX b =>
    obtain rfl : s.read (s.pc + 1) = b := fetched_byte fetched rfl
    rfl

/-! ### The bytes that have a record under the defaults -/

theorem lookup_eq_none_iff_notMem_keys {α : Type} (l : List (Byte × α)) (op : Byte) :
    l.lookup op = none ↔ op ∉ l.map Prod.fst := by
  rw [List.lookup_eq_none_iff, List.mem_map]
  constructor
  · rintro differ ⟨e, listed, rfl⟩
    simpa using differ e listed
  · intro unlisted e listed
    have ne : op ≠ e.1 := fun eq => unlisted ⟨e, listed, eq.symm⟩
    simpa using ne

theorem recordOf_default_eq_none_iff (op : Byte) : recordOf Config.default op = none ↔ op ∉ definedOpcodes :=
  lookup_eq_none_iff_notMem_keys metaDefault op

/-- A row's opcode byte is that of the instruction the row gives for any operand. -/
theorem exists_opcode_of_opcodeForm {op : Byte} {form : Form} (row : opcodeForm op = some form) : ∃ i : Instr, i.opcode = op := by
  have back := writesBack_of_opcodeForm row
  cases form with
  | implied i => exact ⟨i, back.1⟩
  | byteOperand f => exact ⟨f 0, (back 0).1⟩
  | wordOperand f => exact ⟨f 0, (back 0).1⟩

/-- The decoder's table and META_DEFAULT have the same bytes. -/
theorem opcodeForm_eq_none_iff (op : Byte) : opcodeForm op = none ↔ op ∉ definedOpcodes := by
  constructor
  · intro no_row defined
    have table : definedOpcodes.all (fun o => (opcodeForm o).isSome) = true := by decide
    simpa [no_row] using List.all_eq_true.1 table op defined
  · intro undefined
    cases row : opcodeForm op with
    | none => rfl
    | some form =>
      obtain ⟨i, rfl⟩ := exists_opcode_of_opcodeForm row
      obtain ⟨r, record, -⟩ := recordOf_opcode i
      rw [(recordOf_default_eq_none_iff _).2 undefined] at record
      exact nomatch record

/-- No byte outside the table has a default handler (D23). -/
theorem handlerOf_eq_none {c : Config} (handlers : c.handlers = handlersDefault) {op : Byte} (undefined : op ∉ definedOpcodes) :
    handlerOf c op = none := by
  have keys : (handlersDefault.map Prod.fst).all definedOpcodes.contains = true := by decide
  rw [handlerOf, handlers, lookup_eq_none_iff_notMem_keys]
  exact fun listed => undefined (List.contains_iff_mem.1 (List.all_eq_true.1 keys op listed))

/-! ### The statements on a step of the model -/

/-- Settles O5: three bytes that decode are what the fetch reads, and a step runs the instruction fetched. -/
theorem stepRunsDecodedInstruction : Obligations.StepRunsDecodedInstruction := by
  intro s i rest running decoded _
  exact step_of_fetch running (fetch_eq_some_iff.2 ⟨rest, decoded⟩)

/-- Settles O6: `step_of_not_running`. -/
theorem stepWithoutRunKeepsState : Obligations.StepWithoutRunKeepsState :=
  fun _ idle => step_of_not_running idle

/-- Settles O7: an instruction fetched runs as the dispatcher runs it, and where none is fetched META_DEFAULT has no record. -/
theorem stepRefinesDispatcher : Obligations.StepRefinesDispatcher := by
  intro s
  by_cases running : s.runState = .running
  · rw [dispatch_of_running (c := Config.default) rfl running]
    cases fetched : s.fetch with
    | none =>
      have undefined : s.read s.pc ∉ definedOpcodes := (opcodeForm_eq_none_iff _).1 ((fetch_eq_none_iff s).1 fetched)
      rw [step_of_no_fetch running fetched, dispatchStep_of_no_record ((recordOf_default_eq_none_iff _).2 undefined)]
    | some i => rw [step_of_fetch running fetched, exec_eq_dispatchStep fetched]
  · rw [step_of_not_running running, dispatch_of_not_running rfl running]

/-- Settles O8: a step ends with the run state kept, Faulted, or as `Executed.runState` says. -/
theorem stepAlwaysAnswersNext : Obligations.StepAlwaysAnswersNext := by
  intro s
  obtain ⟨t, next, stepped⟩ := step_stepped s
  refine ⟨t, next, ?_⟩
  cases stepped with
  | kept => exact .inr (.inr (.inl rfl))
  | raised => exact .inr (.inr (.inr ⟨_, _, rfl⟩))
  | ran running _ executed =>
    obtain halted | kept := executed.runState
    · exact .inr (.inl halted)
    · exact .inl (kept.trans running)

/-- An instruction never leaves the run state Faulted. -/
theorem Executed.not_faulted {i : Instr} {s t : State} (executed : Executed i s t) (running : s.runState = .running)
    {kind : FatalKind} {opcode : Byte} {pc : Addr} : t.runState ≠ .faulted kind opcode pc := by
  obtain halted | kept := executed.runState
  · simp [halted]
  · simp [kept, running]

/-- An instruction writes at most one byte, so it keeps the canonical form. -/
theorem Executed.mem_wf {i : Instr} {s t : State} (executed : Executed i s t) (canonical : Memory.wf s.mem = true) :
    Memory.wf t.mem = true := by
  obtain mem | ⟨addr, -, mem⟩ := executed.mem <;> rw [mem]
  · exact canonical
  · exact State.write_wf canonical addr s.a

/-- Settles O9: a raise records the byte at PC, which has no record, and keeps memory; an instruction ends with the run state not Faulted
and memory canonical. -/
theorem stepKeepsInvariant : Obligations.StepKeepsInvariant := by
  intro s t invariant next
  have canonical := invariant.1
  cases stepped_of_next next with
  | kept => exact invariant
  | raised _ no_fetch =>
    refine ⟨canonical, fun kind opcode pc faulted => ?_⟩
    cases faulted
    exact ⟨rfl, rfl, rfl, (fetch_eq_none_iff s).1 no_fetch⟩
  | ran running _ executed =>
    exact ⟨executed.mem_wf canonical, fun kind opcode pc faulted => absurd faulted (executed.not_faulted running)⟩

/-- Settles O10: nothing is written at reset and the run state is Idle. -/
theorem resetHasInvariant : Obligations.ResetHasInvariant :=
  ⟨State.reset_wf, fun _ _ _ faulted => nomatch faulted⟩

/-- Settles O20: a raise writes no register, and no instruction writes Y or a flag but C, V, Z and N. -/
theorem stepKeepsYAndStorageFlags : Obligations.StepKeepsYAndStorageFlags := by
  intro s t next
  cases stepped_of_next next with
  | kept => exact ⟨rfl, rfl, rfl, rfl, rfl⟩
  | raised => exact ⟨rfl, rfl, rfl, rfl, rfl⟩
  | ran _ _ executed =>
    have storage_kept (g : Flag) (storage : g ≠ .zero ∧ g ≠ .negative ∧ g ≠ .carry ∧ g ≠ .overflow) :
        Flag.get g t.p = Flag.get g s.p := by
      obtain ⟨zero, negative, carry, overflow⟩ := storage
      exact executed.flag_kept zero negative fun _ => ⟨carry, overflow⟩
    exact ⟨executed.y, storage_kept _ (by decide), storage_kept _ (by decide), storage_kept _ (by decide),
      storage_kept _ (by decide)⟩

/-- Settles O21: only an STA changes memory, and its write changes one byte, to A. -/
theorem onlyStaWritesMemory : Obligations.OnlyStaWritesMemory := by
  intro s t addr canonical next changed
  cases stepped_of_next next with
  | kept => exact absurd rfl changed
  | raised => exact absurd rfl changed
  | @ran i _ running fetched executed =>
    obtain mem | ⟨addr', store, mem⟩ := executed.mem
    · exact absurd (by rw [State.read, mem, State.read]) changed
    · have read_t : t.read addr = (s.write addr' s.a).read addr := by rw [State.read, mem, State.read]
      obtain rfl : addr = addr' := by
        by_contra ne
        exact changed (read_t.trans (State.write_read_other s ne s.a))
      exact ⟨running, read_t.trans (State.write_read_same canonical addr s.a), i, fetched, store⟩

/-- Settles O28: STA's effect in a step, and the next opcode byte is the one at the new PC. -/
theorem storeIsSeenByNextFetch : Obligations.StoreIsSeenByNextFetch := by
  intro s i addr running canonical fetched store
  obtain ⟨addr', store', stored⟩ := exec_of_sta (handler_of_storeAddress store) s
  obtain rfl := Option.some.inj (store.symm.trans store')
  obtain ⟨⟨written, -⟩, advanced⟩ := withHandler_staTo (Instr.length_pos i) canonical fun _ => addr
  refine ⟨_, (step_of_fetch running fetched).trans stored, advanced, written, fun at_pc => ?_⟩
  rw [State.fetchBytes, at_pc, written, List.head?_cons]

end Sys2Proof.Machine
end

section
/-!
Proofs of 40_dispatch.md and 60_exceptions.md for any META and HANDLERS. A running step of the dispatcher ends with the run still Running, Halted,
or Faulted by the one raise of the byte at PC (`dispatchStep_cases`); the statements say when each of these happens and what it leaves.
-/

namespace Sys2Proof.Machine

section
variable {c : Config} {s : State}

/-! ### How a step of the dispatcher ends -/

/-- Where a step ends Faulted, it has raised that condition of the byte at PC and done nothing else (60_exceptions.md R206). -/
theorem dispatchStep_of_faulted (running : s.runState = .running) {kind : FatalKind} {opcode : Byte} {pc : Addr}
    (faulted : (dispatchStep c s).runState = .faulted kind opcode pc) : dispatchStep c s = raise kind (s.read s.pc) s := by
  obtain ⟨kind', eq⟩ | ⟨-, eq⟩ | ⟨r, handler, t, -, -, -, -, -, -, kept, eq⟩ := dispatchStep_cases c s <;> rw [eq] at faulted ⊢
  · cases faulted
    rfl
  · exact nomatch faulted
  · rw [State.setPc_runState, kept, running] at faulted
    exact nomatch faulted

/-- Where a step goes on running, its handler has completed and PC has moved on by the record's length (40_dispatch.md R114). -/
theorem advanced_dispatchStep {r : MetaRecord} (wf : c.wf = true) (record : recordOf c (s.read s.pc) = some r)
    (running : (dispatchStep c s).runState = .running) : Advanced r.length s (dispatchStep c s) := by
  obtain ⟨kind, eq⟩ | ⟨-, eq⟩ | ⟨r', handler, t, record', -, -, -, -, -, -, eq⟩ := dispatchStep_cases c s <;> rw [eq] at running ⊢
  · exact nomatch running
  · exact nomatch running
  · obtain rfl : r = r' := Option.some.inj (record.symm.trans record')
    have pos := (record_length wf record).1
    have one : (1 : Addr).toNat = 1 := rfl
    simp only [Advanced, State.setPc_pc, BitVec.toNat_add, BitVec.toNat_ofNat, one]
    omega

/-- A handler that resolves no placeholder halts the run if it is BRK, and otherwise keeps it going (44_control.md R190). -/
theorem dispatchStep_runState {r : MetaRecord} {handler : Handler} (running : s.runState = .running)
    (record : recordOf c (s.read s.pc) = some r) (bound : handlerOf c (s.read s.pc) = some handler)
    (resolves : ¬ (r.mode = .noneAddressing ∧ (handler = .lda ∨ handler = .sta ∨ handler = .adc))) :
    (dispatchStep c s).runState = if handler = .brk then .halted else .running := by
  rw [dispatchStep_of_handler record bound]
  obtain ⟨placeholder, resolver, -⟩ | ⟨rfl, halted⟩ | ⟨not_brk, t, completed, pc, -, kept⟩ :=
    invoke_cases handler r.mode s.fetchAdvance
  · exact absurd ⟨placeholder, resolver⟩ resolves
  · simp [halted]
  · rw [completed, if_neg not_brk]
    simp only [skipOperands_of_eq pc, State.setPc_runState, kept, State.fetchAdvance_runState, running]

/-- A byte's record and handler are all a step takes from the configuration. -/
theorem dispatchStep_congr {c' : Config} (record : recordOf c (s.read s.pc) = recordOf c' (s.read s.pc))
    (handler : handlerOf c (s.read s.pc) = handlerOf c' (s.read s.pc)) : dispatchStep c s = dispatchStep c' s := by
  simp only [dispatchStep, record, handler]

/-- A running step that is a raise of the byte at PC answers a state as `Raised` says. -/
theorem raised_of_dispatchStep (wf : c.wf = true) (running : s.runState = .running) {kind : FatalKind}
    (raises : dispatchStep c s = raise kind (s.read s.pc) s) : ∃ t, dispatch c s = .next t ∧ Raised kind s t :=
  ⟨_, (dispatch_of_running wf running).trans (congrArg _ raises), raised_raise kind s⟩

/-! ### Running again after a fatal condition -/

/-- The host's `run()` undoes all that a raise has written (60_exceptions.md R209). -/
theorem startRun_raise (running : s.runState = .running) (kind : FatalKind) (opcode : Byte) :
    startRun (raise kind opcode s) = s := by
  cases s
  cases running
  rfl

theorem betweenRuns_of_not_running {o : Host.Outcome State Fault Refusal} (idle : s.runState ≠ .running) :
    betweenRuns s o = o := by
  unfold betweenRuns
  split
  · contradiction
  all_goals rfl

theorem betweenRuns_of_running {o : Host.Outcome State Fault Refusal} (running : s.runState = .running) :
    betweenRuns s o = .refused .runInProgress := by
  rw [betweenRuns, running]

/-- The loop stops, whatever is left of its bound, once the run state is no longer Running (40_dispatch.md R110). -/
theorem runLoop_of_not_running (idle : s.runState ≠ .running) (fuel : Nat) : runLoop c fuel s = .next s := by
  cases fuel
  all_goals
    unfold runLoop
    split
    · contradiction
    all_goals rfl

/-- While the run state is Running, the loop takes a step of the dispatcher and goes on from what it answers. -/
theorem runLoop_succ_of_next {t : State} (running : s.runState = .running) (next : dispatch c s = .next t) (fuel : Nat) :
    runLoop c (fuel + 1) s = runLoop c fuel t := by
  simp only [runLoop, running, next]

end

/-! ### The statements -/

/-- Settles O11: one lemma on `dispatchStep` for each place in the order of the checks. -/
theorem dispatchChecksInOrder : Obligations.DispatchChecksInOrder := by
  intro c s wf running
  refine ⟨fun no_record => ?_, fun r record no_handler => ?_, fun r h record bound placeholder resolver => ?_,
    fun r h record bound resolves => ?_⟩
  · exact raised_of_dispatchStep wf running (dispatchStep_of_no_record no_record)
  · exact raised_of_dispatchStep wf running (dispatchStep_of_no_handler record no_handler)
  · exact raised_of_dispatchStep wf running
      (dispatchStep_of_resolvesPlaceholder ⟨r, h, record, bound, placeholder, resolver⟩)
  · exact ⟨_, dispatch_of_running wf running, dispatchStep_runState running record bound resolves⟩

/-- Settles O12: a step that ends Faulted is a raise of the byte at PC. -/
theorem raisingStepChangesNothing : Obligations.RaisingStepChangesNothing := by
  intro c s t kind opcode pc running next faulted
  obtain ⟨-, rfl⟩ := eq_dispatchStep_of_next running next
  rw [dispatchStep_of_faulted running faulted]
  exact raised_raise kind s

/-- Settles O13: running again undoes the raise, so the same step is taken again, and the loop stops at what it answers. -/
theorem faultRecursWhenRunAgain : Obligations.FaultRecursWhenRunAgain := by
  intro c s t kind opcode pc fuel running next faulted
  have restarted : startRun t = s := by
    obtain ⟨-, rfl⟩ := eq_dispatchStep_of_next running next
    rw [dispatchStep_of_faulted running faulted, startRun_raise running]
  have ended : t.runState ≠ .running := by simp [faulted]
  refine ⟨restarted.symm ▸ next, ?_⟩
  rw [run, betweenRuns_of_not_running ended, restarted, runLoop_succ_of_next running next, runLoop_of_not_running ended]

/-- Settles O14: step 5 by its two lemmas, and a whole step by `advanced_dispatchStep`. -/
theorem completedStepAdvancesByLength : Obligations.CompletedStepAdvancesByLength := by
  refine ⟨fun before length s _ => ⟨fun kept => ?_, fun moved => ?_⟩, fun c s t r running record next goes_on => ?_⟩
  · subst kept
    simp [skipOperands_of_eq rfl, BitVec.toNat_add]
  · rw [skipOperands_of_ne moved]
  · obtain ⟨wf, rfl⟩ := eq_dispatchStep_of_next running next
    exact advanced_dispatchStep wf record goes_on

/-- Settles O15: under the defaults the fetch of such a byte gives no instruction, and under any META step 2 raises. -/
theorem unrecognizedByteRaises : Obligations.UnrecognizedByteRaises := by
  refine ⟨by decide +kernel, fun s running undefined => ?_, fun c s wf running no_record => ?_⟩
  · have no_fetch : s.fetch = none := (fetch_eq_none_iff s).2 ((opcodeForm_eq_none_iff _).2 undefined)
    exact ⟨_, step_of_no_fetch running no_fetch, raised_raise _ s⟩
  · exact raised_of_dispatchStep wf running (dispatchStep_of_no_record no_record)

/-- Settles O17: at the 26 bytes record and handler are the defaults', and no other byte has a default handler. -/
theorem largerMetaRunsTheSameOpcodes : Obligations.LargerMetaRunsTheSameOpcodes := by
  intro c s wf handlers agrees running
  refine ⟨fun defined => ?_, fun undefined => ?_⟩
  · have handler : handlerOf c (s.read s.pc) = handlerOf Config.default (s.read s.pc) := by
      rw [handlerOf, handlers]
      rfl
    rw [stepRefinesDispatcher, dispatch_of_running wf running, dispatch_of_running (c := Config.default) rfl running,
      dispatchStep_congr (agrees _ defined) handler]
  · cases record : recordOf c (s.read s.pc) with
    | none =>
      obtain ⟨t, next, raised⟩ := raised_of_dispatchStep wf running (dispatchStep_of_no_record record)
      exact ⟨t, _, next, .inl rfl, raised⟩
    | some r =>
      obtain ⟨t, next, raised⟩ :=
        raised_of_dispatchStep wf running (dispatchStep_of_no_handler record (handlerOf_eq_none handlers undefined))
      exact ⟨t, _, next, .inr rfl, raised⟩

/-- Settles O40: BRK's handler halts whatever its record, and step 5 does not run. -/
theorem brkIgnoresItsRecord : Obligations.BrkIgnoresItsRecord := by
  intro c s r wf running record bound
  have halted : dispatchStep c s = halt s.fetchAdvance := dispatchStep_of_handler record bound
  exact ⟨_, dispatch_of_running wf running, halted ▸ haltedAtBrk_halt s⟩

end Sys2Proof.Machine
end

section
/-!
Proofs of the per-opcode rules (R131 to R191). What a step at an opcode byte runs is said once for each format of 30_encoding.md R81, and the operand
address once for each mode, in the natural numbers of the rules; each rule is then the form's completion at the operand in memory.
-/

namespace Sys2Proof.Machine

/-! ### A step at an opcode byte, by format -/

section
variable {s : State} {op : Byte} (running : s.runState = .running) (at_pc : s.read s.pc = op)
include running at_pc

theorem step_of_implied {i : Instr} (row : opcodeForm op = some (.implied i)) : step s = exec i s := by
  refine step_of_fetch running (fetch_eq_some_iff.2 ⟨[s.read (s.pc + 1), s.read (s.pc + 2)], ?_⟩)
  exact decode_eq_ok_iff.2 ⟨_, _, _, rfl, at_pc ▸ row, rfl⟩

theorem step_of_byteOperand {f : Byte → Instr} (row : opcodeForm op = some (.byteOperand f)) :
    step s = exec (f (s.read (s.pc + 1))) s := by
  refine step_of_fetch running (fetch_eq_some_iff.2 ⟨[s.read (s.pc + 2)], ?_⟩)
  exact decode_eq_ok_iff.2 ⟨_, _, _, rfl, at_pc ▸ row, rfl⟩

theorem step_of_wordOperand {f : Addr → Instr} (row : opcodeForm op = some (.wordOperand f)) :
    step s = exec (f (s.read16 (s.pc + 1))) s := by
  rw [State.read16_fetched]
  refine step_of_fetch running (fetch_eq_some_iff.2 ⟨[], ?_⟩)
  exact decode_eq_ok_iff.2 ⟨_, _, _, rfl, at_pc ▸ row, rfl⟩

end

/-! ### The operand and the addresses in natural numbers -/

theorem byteAt_add (s : State) (addr : Addr) (n : Nat) : byteAt s (addr.toNat + n) = s.read (addr + BitVec.ofNat 16 n) := by
  rw [byteAt, BitVec.ofNat_add, BitVec.ofNat_toNat, BitVec.setWidth_eq]

theorem operandByte_eq (s : State) : operandByte s = (s.read (s.pc + 1)).toNat :=
  congrArg BitVec.toNat (byteAt_add s s.pc 1)

theorem operandWord_eq (s : State) : operandWord s = (s.read16 (s.pc + 1)).toNat := by
  rw [State.read16_fetched, wordOf_toNat, operandWord, byteAt_add, byteAt_add]
  rfl

section
variable (s : State)

theorem operand_zeroPage : BitVec.ofNat 16 (operandByte s) = zeroPage (s.read (s.pc + 1)) := by
  rw [operandByte_eq, ← zeroPage_eq_ofNat]

theorem operand_zeroPageX :
    BitVec.ofNat 16 ((operandByte s + s.x.toNat) % 256) = zeroPageIndexed (s.read (s.pc + 1)) s.x := by
  rw [operandByte_eq, ← zeroPageIndexed_eq_ofNat]

theorem operand_absolute : BitVec.ofNat 16 (operandWord s) = s.read16 (s.pc + 1) := by
  rw [operandWord_eq, BitVec.ofNat_toNat, BitVec.setWidth_eq]

theorem operand_absoluteIndexed (index : Byte) :
    BitVec.ofNat 16 ((operandWord s + index.toNat) % 65536) = absoluteIndexed (s.read16 (s.pc + 1)) index := by
  rw [operandWord_eq, ← absoluteIndexed_eq_ofNat]

theorem operand_indirectX :
    BitVec.ofNat 16 (zeroPageWord s (operandByte s + s.x.toNat)) = indirectX (s.read (s.pc + 1)) s := by
  rw [operandByte_eq, ← indirectX_eq_ofNat]

theorem operand_indirectY :
    BitVec.ofNat 16 ((zeroPageWord s (operandByte s) + s.y.toNat) % 65536) = indirectY (s.read (s.pc + 1)) s := by
  rw [operandByte_eq, ← indirectY_eq_ofNat]

end

/-! ### The statements -/

/-- Settles O23: each byte runs its form of LDA on the operand at PC, which completes as `ldaFormsComplete` says. -/
theorem ldaOpcodesStep : Obligations.LdaOpcodesStep := by
  intro s running
  obtain ⟨immediate, zeroPage, zeroPageX, absolute, absoluteX, absoluteY, indirectX, indirectY⟩ :=
    ldaFormsComplete s (s.read (s.pc + 1)) (s.read16 (s.pc + 1))
  rw [byteAt_add]
  simp only [byteAt, operand_zeroPage, operand_zeroPageX, operand_absolute, operand_absoluteIndexed, operand_indirectX,
    operand_indirectY]
  exact ⟨fun at_pc => step_of_byteOperand running at_pc rfl ▸ immediate,
    fun at_pc => step_of_byteOperand running at_pc rfl ▸ zeroPage,
    fun at_pc => step_of_byteOperand running at_pc rfl ▸ zeroPageX,
    fun at_pc => step_of_wordOperand running at_pc rfl ▸ absolute,
    fun at_pc => step_of_wordOperand running at_pc rfl ▸ absoluteX,
    fun at_pc => step_of_wordOperand running at_pc rfl ▸ absoluteY,
    fun at_pc => step_of_byteOperand running at_pc rfl ▸ indirectX,
    fun at_pc => step_of_byteOperand running at_pc rfl ▸ indirectY⟩

/-- Settles O26: each byte runs its form of STA on the operand at PC, which completes as `staFormsComplete` says. -/
theorem staOpcodesStep : Obligations.StaOpcodesStep := by
  intro s running canonical
  obtain ⟨zeroPage, zeroPageX, absolute, absoluteX, absoluteY, indirectX, indirectY⟩ :=
    staFormsComplete s (s.read (s.pc + 1)) (s.read16 (s.pc + 1)) canonical
  simp only [operand_zeroPage, operand_zeroPageX, operand_absolute, operand_absoluteIndexed, operand_indirectX,
    operand_indirectY]
  exact ⟨fun at_pc => step_of_byteOperand running at_pc rfl ▸ zeroPage,
    fun at_pc => step_of_byteOperand running at_pc rfl ▸ zeroPageX,
    fun at_pc => step_of_wordOperand running at_pc rfl ▸ absolute,
    fun at_pc => step_of_wordOperand running at_pc rfl ▸ absoluteX,
    fun at_pc => step_of_wordOperand running at_pc rfl ▸ absoluteY,
    fun at_pc => step_of_byteOperand running at_pc rfl ▸ indirectX,
    fun at_pc => step_of_byteOperand running at_pc rfl ▸ indirectY⟩

/-- Settles O30: each byte runs its form of ADC on the operand at PC, which completes as `adcFormsComplete` says. -/
theorem adcOpcodesStep : Obligations.AdcOpcodesStep := by
  intro s running
  obtain ⟨immediate, zeroPage, zeroPageX, absolute, absoluteX, absoluteY, indirectX, indirectY⟩ :=
    adcFormsComplete s (s.read (s.pc + 1)) (s.read16 (s.pc + 1))
  rw [byteAt_add]
  simp only [byteAt, operand_zeroPage, operand_zeroPageX, operand_absolute, operand_absoluteIndexed, operand_indirectX,
    operand_indirectY]
  exact ⟨fun at_pc => step_of_byteOperand running at_pc rfl ▸ immediate,
    fun at_pc => step_of_byteOperand running at_pc rfl ▸ zeroPage,
    fun at_pc => step_of_byteOperand running at_pc rfl ▸ zeroPageX,
    fun at_pc => step_of_wordOperand running at_pc rfl ▸ absolute,
    fun at_pc => step_of_wordOperand running at_pc rfl ▸ absoluteX,
    fun at_pc => step_of_wordOperand running at_pc rfl ▸ absoluteY,
    fun at_pc => step_of_byteOperand running at_pc rfl ▸ indirectX,
    fun at_pc => step_of_byteOperand running at_pc rfl ▸ indirectY⟩

/-- Settles O36: the two bytes run TAX and INX. -/
theorem taxInxOpcodesStep : Obligations.TaxInxOpcodesStep := by
  intro s running
  obtain ⟨tax, inx⟩ := taxInxComplete s
  exact ⟨fun at_pc => step_of_implied running at_pc rfl ▸ tax, fun at_pc => step_of_implied running at_pc rfl ▸ inx⟩

/-- Settles O39: the byte runs BRK, and no step is taken once the run has halted. -/
theorem brkOpcodeStep : Obligations.BrkOpcodeStep := by
  intro s running at_pc
  obtain ⟨t, next, halted⟩ := brkHalts s
  have ended : t.runState ≠ .running := by simp [halted.1]
  exact ⟨t, (step_of_implied running at_pc rfl).trans next, halted, step_of_not_running ended⟩

end Sys2Proof.Machine
end

section
/-!
Proofs of 43_arithmetic.md on the sum itself. A byte's sign is whether its number is at least 128, so the two-step sum, its carry and its overflow
are linear arithmetic over the numbers of the two bytes and the carry.
-/

namespace Sys2Proof.Machine

/-! ### The sum in natural numbers -/

theorem adcSum_result_toNat (a op : Byte) (cin : Bool) :
    (adcSum a op cin).result.toNat = (a.toNat + op.toNat + cin.toNat) % 256 := by
  simp only [adcSum, BitVec.toNat_ofNat]
  omega

theorem adcSum_carry_eq (a op : Byte) (cin : Bool) :
    (adcSum a op cin).carry = decide (a.toNat + op.toNat + cin.toNat > 255) := by
  have a_lt := a.isLt
  have op_lt := op.isLt
  have cin_le := Bool.toNat_le cin
  simp only [adcSum, BitVec.toNat_ofNat, ← Bool.decide_or, decide_eq_decide]
  omega

/-- Overflow compares the result's sign with both summands' (R170). -/
theorem adcSum_overflow_iff (a op : Byte) (cin : Bool) :
    (adcSum a op cin).overflow = true ↔
      (adcSum a op cin).result.msb ≠ op.msb ∧ (adcSum a op cin).result.msb ≠ a.msb := by
  have signs : (adcSum a op cin).overflow =
      (((adcSum a op cin).result ^^^ op) &&& ((adcSum a op cin).result ^^^ a)).getLsbD 7 := sign_bit_ne_zero _
  rw [signs]
  simp [BitVec.msb_eq_getLsbD_last]

/-- Two bytes have the same sign where both or neither are at least 128. -/
theorem msb_eq_iff (v w : Byte) : v.msb = w.msb ↔ (128 ≤ v.toNat ↔ 128 ≤ w.toNat) := by
  simp [BitVec.msb_eq_decide]

theorem byte_toInt_cases (v : Byte) :
    (v.toNat < 128 ∧ v.toInt = v.toNat) ∨ (128 ≤ v.toNat ∧ v.toInt = (v.toNat : Int) - 256) := by
  rw [BitVec.toInt_eq_toNat_cond]
  split <;> omega

/-! ### The statements -/

/-- Settles O32: the clauses are linear arithmetic over the bytes' numbers once signs are comparisons with 128. -/
theorem adcIsNineBitSum : Obligations.AdcIsNineBitSum := by
  intro a op cin
  have a_lt := a.isLt
  have op_lt := op.isLt
  have cin_le := Bool.toNat_le cin
  have result := adcSum_result_toNat a op cin
  have overflow := adcSum_overflow_iff a op cin
  simp only [ne_eq, msb_eq_iff] at overflow ⊢
  refine ⟨result, adcSum_carry_eq a op cin, ?two_carries, ?by_signs, ?by_signed_sum⟩
  case two_carries => omega
  case by_signs =>
    rw [overflow]
    omega
  case by_signed_sum =>
    have a_signed := byte_toInt_cases a
    have op_signed := byte_toInt_cases op
    rw [overflow]
    omega

/-- A way of writing P leaves a flag that only its storage holds, so writing such a flag before it or after it comes to the same. -/
theorem StatusWrite.apply_put (w : StatusWrite) {f : Flag}
    (storage : f ≠ .zero ∧ f ≠ .negative ∧ f ≠ .carry ∧ f ≠ .overflow) (v : Bool) (p : Byte) :
    w.apply (Flag.put f v p) = Flag.put f v (w.apply p) := by
  obtain ⟨zero, negative, carry, overflow⟩ := storage
  refine status_ext fun g => ?_
  by_cases same : g = f
  · subst same
    cases w <;> simp [StatusWrite.apply, znByte_get, adcStatus_get, Flag.get_put, zero, negative, carry, overflow]
  · cases w <;> simp [StatusWrite.apply, znByte_get, adcStatus_get, Flag.get_put, same]

/-- Settles O33: an instruction reads no flag but Carry, and its way of writing P leaves the decimal flag. -/
theorem adcIgnoresDecimalMode : Obligations.AdcIgnoresDecimalMode := by
  intro i s d _
  obtain ⟨w, t, status, -⟩ := exec_writesStatus i s
  have next : exec i s = .next (t.setP (w.apply s.p)) := status s.p rfl
  have storage : Flag.decimalMode ≠ .zero ∧ Flag.decimalMode ≠ .negative ∧ Flag.decimalMode ≠ .carry ∧
      Flag.decimalMode ≠ .overflow := by decide
  obtain ⟨zero, negative, carry, overflow⟩ := storage
  refine ⟨_, next, ?_, (executed_of_next next).flag_kept zero negative fun _ => ⟨carry, overflow⟩⟩
  have same_carry : Flag.get .carry (Flag.put .decimalMode d s.p) = Flag.get .carry s.p := by simp [Flag.get_put]
  have decimal_first := status _ same_carry
  rw [StatusWrite.apply_put w (by decide)] at decimal_first
  exact decimal_first

/-- ADC Immediate writes A and its four flags from the sum of A, its operand and Carry (R170, R174). -/
theorem exec_adcImmediate (s : State) (b : Byte) :
    ∃ t, exec (.adcImmediate b) s = .next t ∧ t.a = (adcSum s.a b (Flag.get .carry s.p)).result ∧
      t.p = adcStatus (adcSum s.a b (Flag.get .carry s.p)) s.p := by
  refine ⟨_, rfl, ?_⟩
  rw [withHandler_of_pc rfl (by decide)]
  exact ⟨rfl, rfl⟩

/-- Settles O34: the state's A and Carry are the row's, so each row is one closed sum. -/
theorem adcCornerTable : Obligations.AdcCornerTable := by
  intro s row listed a carry
  obtain ⟨t, next, result, status⟩ := exec_adcImmediate s row.2.1
  refine ⟨t, next, ?_⟩
  simp only [result, status, adcStatus_get, a, carry, reduceCtorEq, if_false, if_true]
  clear * - listed
  fin_cases listed <;> decide

end Sys2Proof.Machine
end

section
/-!
Proofs of 20_memory.md on words and on the canonical form. What a 16-bit write leaves at each address is said once, in any memory for the bytes it
does not touch and in a canonical one for those it does.
-/

namespace Sys2Proof.Machine

/-! ### Words (R53, R54, R56) -/

/-- A 16-bit write leaves every byte but its two, in a memory of any form. -/
theorem State.write16_read_other (s : State) {addr other : Addr} (low : other ≠ addr) (high : other ≠ addr + 1) (w : Addr) :
    (s.write16 addr w).read other = s.read other := by
  rw [State.write16, State.write_read_other _ high, State.write_read_other _ low]

section
variable {s : State} (canonical : Memory.wf s.mem = true) (addr w : Addr)
include canonical

/-- The high byte is written last, at the address after `addr`. -/
theorem State.write16_read_high : (s.write16 addr w).read (addr + 1) = highByte w :=
  State.write_read_same (State.write_wf canonical addr _) _ _

theorem State.write16_read_low : (s.write16 addr w).read addr = lowByte w := by
  have distinct : addr ≠ addr + 1 := by simp
  rw [State.write16, State.write_read_other _ distinct, State.write_read_same canonical]

theorem State.write16_read16 : (s.write16 addr w).read16 addr = w := by
  rw [State.read16, State.write16_read_high canonical, State.write16_read_low canonical, wordOf_lowByte_highByte]

end

theorem byteAt_succ_mod (s : State) (addr : Addr) : byteAt s ((addr.toNat + 1) % 65536) = s.read (addr + 1) := by
  have next : (addr + 1).toNat = (addr.toNat + 1) % 65536 := BitVec.toNat_add addr 1
  rw [← next, byteAt_toNat]

/-! ### The canonical form (log 2) -/

theorem Memory.wfFrom_cons {lo k : Nat} {v : Byte} {m : Memory} (h : Memory.wfFrom lo ((k, v) :: m) = true) :
    k < 65536 ∧ v ≠ Memory.unwritten ∧ Memory.wfFrom (k + 1) m = true := by
  simp only [Memory.wfFrom, Bool.and_eq_true, decide_eq_true_eq] at h
  obtain ⟨⟨⟨-, lt⟩, ne⟩, tail⟩ := h
  exact ⟨lt, ne, tail⟩

@[simp] theorem Memory.get_head (k : Nat) (v : Byte) (m : Memory) : Memory.get ((k, v) :: m) k = v := if_pos rfl

/-- Where two canonical memories read alike, the first key of the one is not below the first key of the other: it would read as written in
the one and as unwritten in the other. -/
theorem Memory.first_key_le {lo lo' k k' : Nat} {v v' : Byte} {m n : Memory} (hm : Memory.wfFrom lo ((k, v) :: m) = true)
    (hn : Memory.wfFrom lo' ((k', v') :: n) = true)
    (alike : ∀ j < 65536, Memory.get ((k, v) :: m) j = Memory.get ((k', v') :: n) j) : k' ≤ k := by
  obtain ⟨lt, written, -⟩ := Memory.wfFrom_cons hm
  obtain ⟨-, -, tail⟩ := Memory.wfFrom_cons hn
  by_contra below
  have unlisted : Memory.get ((k', v') :: n) k = Memory.unwritten := by
    rw [Memory.get, if_neg (by omega), Memory.get_below tail (by omega)]
  exact written ((Memory.get_head k v m).symm.trans ((alike k lt).trans unlisted))

theorem Memory.eq_nil_of_unwritten {lo : Nat} {m : Memory} (h : Memory.wfFrom lo m = true)
    (unwritten : ∀ j < 65536, Memory.get m j = Memory.unwritten) : m = [] := by
  cases m with
  | nil => rfl
  | cons c m =>
    obtain ⟨lt, written, -⟩ := Memory.wfFrom_cons h
    exact absurd ((Memory.get_head c.1 c.2 m).symm.trans (unwritten c.1 lt)) written

/-- Canonical memories that read alike are equal: their first cells agree, and so do the rest, where neither lists that key again. -/
theorem Memory.eq_of_get_eq {lo lo' : Nat} {m n : Memory} (hm : Memory.wfFrom lo m = true) (hn : Memory.wfFrom lo' n = true)
    (alike : ∀ j < 65536, Memory.get m j = Memory.get n j) : m = n := by
  induction m generalizing n lo lo' with
  | nil => exact (Memory.eq_nil_of_unwritten hn fun j lt => (alike j lt).symm).symm
  | cons c m ih =>
    cases n with
    | nil => exact Memory.eq_nil_of_unwritten hm alike
    | cons d n =>
      obtain ⟨k, v⟩ := c
      obtain ⟨k', v'⟩ := d
      obtain ⟨lt, -, tail_m⟩ := Memory.wfFrom_cons hm
      obtain ⟨-, -, tail_n⟩ := Memory.wfFrom_cons hn
      obtain rfl : k = k' :=
        Nat.le_antisymm (Memory.first_key_le hn hm fun j lt => (alike j lt).symm) (Memory.first_key_le hm hn alike)
      obtain rfl : v = v' := by simpa using alike k lt
      have tails (j : Nat) (lt : j < 65536) : Memory.get m j = Memory.get n j := by
        by_cases first : k = j
        · rw [Memory.get_below tail_m (by omega), Memory.get_below tail_n (by omega)]
        · simpa [Memory.get, first] using alike j lt
      rw [ih tail_m tail_n tails]

/-! ### The statements -/

/-- Settles O45: a word is its two bytes, the second at the address after the first, where `addr + 1` wraps. -/
theorem wordAccessIsLittleEndian : Obligations.WordAccessIsLittleEndian := by
  intro s addr w
  rw [byteAt_succ_mod, byteAt_succ_mod, byteAt_toNat]
  refine ⟨wordOf_toNat _ _, fun canonical => ⟨State.write16_read16 canonical addr w, ?_, ?_,
    fun other low high => State.write16_read_other s low high w⟩⟩
  · rw [State.write16_read_low canonical, lowByte_toNat]
  · rw [State.write16_read_high canonical, highByte_toNat]

/-- Settles O46: `Memory.eq_of_get_eq`, at the addresses that are the numbers below 65536. -/
theorem canonicalMemoryIsUnique : Obligations.CanonicalMemoryIsUnique := by
  intro m n hm hn alike
  refine Memory.eq_of_get_eq hm hn fun j lt => ?_
  have number : (BitVec.ofNat 16 j).toNat = j := Nat.mod_eq_of_lt lt
  simpa only [number] using alike (BitVec.ofNat 16 j)

end Sys2Proof.Machine
end

section
/-!
Proofs of 70_reset_and_hazards.md. Every operation of the host goes through `betweenRuns` or `accessorRead`, which let it through exactly where
no run is in progress; what placing an image leaves at each address is said once; and the loop of `run()` is the step repeated.
-/

namespace Sys2Proof.Machine

/-! ### When the host may act -/

theorem accessorRead_of_not_running {α : Type} {s : State} (idle : s.runState ≠ .running) (v : α) : accessorRead s v = .ok v := by
  unfold accessorRead
  split
  · contradiction
  all_goals rfl

theorem accessorRead_of_running {α : Type} {s : State} (running : s.runState = .running) (v : α) :
    accessorRead s v = .error .runInProgress := by
  rw [accessorRead, running]

/-- What the host reads depends on the value and on whether a run is in progress. -/
theorem accessorRead_congr {α : Type} {s t : State} (same : t.runState = s.runState) (v : α) : accessorRead t v = accessorRead s v := by
  rw [accessorRead, same, accessorRead]

theorem State.setRegister_register (s : State) (r : Register) (v : Byte) : (s.setRegister r v).register r = v := by
  cases r <;> rfl

theorem State.setRegister_register_other (s : State) {r q : Register} (ne : q ≠ r) (v : Byte) :
    (s.setRegister r v).register q = s.register q := by
  cases r <;> cases q <;> simp_all [State.register, State.setRegister]

theorem State.setRegister_frame (s : State) (r : Register) (v : Byte) :
    (s.setRegister r v).pc = s.pc ∧ (s.setRegister r v).runState = s.runState ∧ (s.setRegister r v).mem = s.mem := by
  cases r <;> exact ⟨rfl, rfl, rfl⟩

/-! ### Loading an image (R235, R236) -/

/-- Bytes placed from `addr` on stand there, first byte first, and no other byte changes; they do not run past 0xFFFF. -/
theorem State.placeBytes_read {s : State} (canonical : Memory.wf s.mem = true) (addr : Addr) (bytes : List Byte)
    (fits : addr.toNat + bytes.length ≤ 65536) (at_ : Addr) :
    (s.placeBytes addr bytes).read at_ =
      if addr.toNat ≤ at_.toNat ∧ at_.toNat < addr.toNat + bytes.length then bytes.getD (at_.toNat - addr.toNat) 0x00
      else s.read at_ := by
  induction bytes generalizing s addr with
  | nil =>
    rw [if_neg (by simp)]
    rfl
  | cons v vs ih =>
    have next : (addr + 1).toNat = (addr.toNat + 1) % 65536 := BitVec.toNat_add addr 1
    simp only [List.length_cons] at fits ⊢
    rw [State.placeBytes, ih (State.write_wf canonical addr v) (addr + 1) (by omega), State.write_read canonical, next]
    by_cases first : at_ = addr
    · subst first
      rw [if_neg (by omega), if_pos rfl, if_pos (by omega), Nat.sub_self, List.getD_cons_zero]
    have later : at_.toNat ≠ addr.toNat := mt BitVec.eq_of_toNat_eq first
    by_cases rest : addr.toNat + 1 ≤ at_.toNat ∧ at_.toNat < addr.toNat + (vs.length + 1)
    · have index : at_.toNat - addr.toNat = at_.toNat - (addr.toNat + 1) + 1 := by omega
      have no_wrap : (addr.toNat + 1) % 65536 = addr.toNat + 1 := by omega
      rw [if_pos (by omega), if_pos (by omega), index, no_wrap, List.getD_cons_succ]
    · rw [if_neg (by omega), if_neg first, if_neg (by omega)]

theorem loadState_registers (c : Config) (image : List Byte) (s : State) : { loadState c image s with mem := s.mem } = s := by
  rw [loadState, State.placeBytes_registers]
  rfl

theorem loadState_runState (c : Config) (image : List Byte) (s : State) : (loadState c image s).runState = s.runState :=
  (congrArg State.runState (loadState_registers c image s) :)

theorem loadState_y (c : Config) (image : List Byte) (s : State) : (loadState c image s).y = s.y :=
  (congrArg State.y (loadState_registers c image s) :)

section
variable {c : Config} {image : List Byte} {s : State} (idle : s.runState ≠ .running)
include idle

theorem load_of_fits (fits : image.length ≤ 65536 - c.loadAddr.toNat) : load c image s = .next (loadState c image s) := by
  rw [load, betweenRuns_of_not_running idle, Config.imageFits, if_pos (decide_eq_true fits)]

theorem load_of_too_long (long : 65536 - c.loadAddr.toNat < image.length) : load c image s = .refused .imageTooLong := by
  rw [load, betweenRuns_of_not_running idle, Config.imageFits, if_neg (by simpa using long)]

theorem reset_of_not_running : reset c s = .next (resetState c s) :=
  betweenRuns_of_not_running idle

end

/-! ### The loop of `run()` -/

/-- The run state says that a run has ended (40_dispatch.md R118). -/
def Ended (t : State) : Prop := t.runState = .halted ∨ ∃ kind opcode pc, t.runState = .faulted kind opcode pc

theorem Ended.not_running {t : State} (ended : Ended t) : t.runState ≠ .running := by
  obtain halted | ⟨kind, opcode, pc, faulted⟩ := ended
  · simp [halted]
  · simp [faulted]

/-- A step of a run leaves it in progress or ends it. -/
theorem dispatch_running_or_ended {c : Config} {s t : State} (running : s.runState = .running) (next : dispatch c s = .next t) :
    t.runState = .running ∨ Ended t := by
  obtain ⟨-, rfl⟩ := eq_dispatchStep_of_next running next
  obtain ⟨kind, eq⟩ | ⟨-, eq⟩ | ⟨r, handler, u, -, -, -, -, -, -, kept, eq⟩ := dispatchStep_cases c s <;> rw [eq]
  · exact .inr (.inr ⟨_, _, _, rfl⟩)
  · exact .inr (.inl rfl)
  · exact .inl (kept.trans running)

/-- What the loop answers, for any bound, from a run in progress. -/
theorem ended_of_runLoop {c : Config} {fuel : Nat} {s t : State} (running : s.runState = .running)
    (next : runLoop c fuel s = .next t) : Ended t := by
  induction fuel generalizing s with
  | zero => simp [runLoop, running] at next
  | succ fuel ih =>
    simp only [runLoop, running] at next
    split at next
    · next u step_next =>
      obtain goes_on | ended := dispatch_running_or_ended running step_next
      · exact ih goes_on next
      · rw [runLoop_of_not_running ended.not_running] at next
        exact Host.Outcome.next.inj next ▸ ended
    · exact nomatch next
    · exact nomatch next

/-- A step of the host's own repetition. -/
theorem core_run_succ_of_next {s t : State} (next : step s = .next t) (fuel : Nat) :
    Host.Core.run core (fuel + 1) s = Host.Core.run core fuel t := by
  have core_next : core.step s = .next t := next
  simp only [Host.Core.run, core_next]

theorem core_run_of_not_running {s : State} (idle : s.runState ≠ .running) (fuel : Nat) :
    Host.Core.run core fuel s = .next s := by
  induction fuel with
  | zero => rfl
  | succ fuel ih => rw [core_run_succ_of_next (step_of_not_running idle), ih]

/-- The loop under the defaults is the host's repetition of the step, cut off where that is still Running (R110, R118). -/
theorem runLoop_default_eq_core_run (fuel : Nat) (s : State) :
    ∃ t : State, Host.Core.run core fuel s = .next t ∧
      runLoop Config.default fuel s = if t.runState = .running then .fault .fuelExhausted else .next t := by
  by_cases running : s.runState = .running
  · induction fuel generalizing s with
    | zero => exact ⟨s, rfl, by simp [runLoop, running]⟩
    | succ fuel ih =>
      obtain ⟨u, next, -⟩ := step_stepped s
      rw [core_run_succ_of_next next, runLoop_succ_of_next running ((stepRefinesDispatcher s).symm.trans next)]
      by_cases goes_on : u.runState = .running
      · exact ih u goes_on
      · exact ⟨u, core_run_of_not_running goes_on fuel, by rw [runLoop_of_not_running goes_on, if_neg goes_on]⟩
  · exact ⟨s, core_run_of_not_running running fuel, by rw [runLoop_of_not_running running, if_neg running]⟩

/-- A step at INX reads alike everywhere and goes on, so where every byte is INX the loop uses up every bound (R118). -/
theorem runLoop_of_inx_everywhere {s : State} (running : s.runState = .running) (inx : ∀ addr : Addr, s.read addr = 0xE8)
    (fuel : Nat) : runLoop Config.default fuel s = .fault .fuelExhausted := by
  induction fuel generalizing s with
  | zero => simp only [runLoop, running]
  | succ fuel ih =>
    obtain ⟨t, next, ⟨-, -, -, -, kept, same⟩, -⟩ := (taxInxOpcodesStep s running).2 (inx s.pc)
    rw [runLoop_succ_of_next running ((stepRefinesDispatcher s).symm.trans next)]
    exact ih (kept.trans running) fun addr => (same addr).trans (inx addr)

/-! ### The statements on reset and load -/

/-- Settles O48: what `resetState` writes, and `betweenRuns` for when. -/
theorem resetWritesRegisters : Obligations.ResetWritesRegisters := by
  intro c s
  refine ⟨fun idle => ⟨_, reset_of_not_running idle, rfl, rfl, rfl, rfl, ?_, rfl, fun _ => rfl⟩, betweenRuns_of_running⟩
  rw [byteAt_add, byteAt_toNat]
  exact wordOf_toNat _ _

/-- Settles O49: both states are written out, and the vector slot of a memory nothing has written reads 0x0000. -/
theorem resetStateIsResetOfCreation : Obligations.ResetStateIsResetOfCreation := rfl

/-- Settles O50: the vector is written over the image, and the image over what was there. -/
theorem loadPlacesImageAndVector : Obligations.LoadPlacesImageAndVector := by
  intro c image s idle canonical fits
  have placed := State.placeBytes_wf canonical c.loadAddr image
  have high : highByte c.loadAddr = BitVec.ofNat 8 (c.loadAddr.toNat / 256) := by
    apply BitVec.eq_of_toNat_eq
    rw [highByte_toNat, BitVec.toNat_ofNat]
    omega
  have low : lowByte c.loadAddr = BitVec.ofNat 8 (c.loadAddr.toNat % 256) := by
    apply BitVec.eq_of_toNat_eq
    rw [lowByte_toNat, BitVec.toNat_ofNat]
    omega
  refine ⟨_, load_of_fits idle fits, loadState_registers c image s, fun addr => ?_⟩
  rw [loadState, ← high, ← low]
  split
  · next at_high => rw [at_high, State.write16_read_high placed]
  · next not_high =>
    split
    · next at_low => rw [at_low, State.write16_read_low placed]
    · next not_low =>
      rw [State.write16_read_other _ not_low not_high]
      exact State.placeBytes_read canonical c.loadAddr image (by omega) addr

/-- Settles O51: `load` checks the length alone, and what it writes last is the vector. -/
theorem loadRefusesOnlyLongImages : Obligations.LoadRefusesOnlyLongImages := by
  intro c image s idle
  refine ⟨load_of_too_long idle, fun fits canonical => ⟨_, load_of_fits idle fits, ?_⟩,
    ⟨_, load_of_fits idle (Nat.zero_le _), fun addr not_low not_high => ?_⟩⟩
  · exact State.write16_read16 (State.placeBytes_wf canonical _ _) _ _
  · exact State.write16_read_other s not_low not_high _

/-- Settles O52: `load` keeps the run state, so `reset` is not refused, and the PC it reads is the vector just loaded. -/
theorem loadAndRunComposes : Obligations.LoadAndRunComposes := by
  intro c fuel image s idle canonical fits
  have loaded := load_of_fits idle fits
  have still_idle : (loadState c image s).runState ≠ .running := (loadState_runState c image s).symm ▸ idle
  have reset_next : reset c (loadState c image s) = _ := reset_of_not_running still_idle
  refine ⟨_, _, loaded, reset_next, ?_, State.write16_read16 (State.placeBytes_wf canonical _ _) _ _, rfl, rfl, rfl, ?_,
    fun _ => rfl⟩
  · simp only [loadAndRun, loaded, reset_next]
  · rw [resetState, loadState_y]

/-! ### The statements on runs -/

/-- Settles O53: `run()` is the loop from a run in progress. -/
theorem runEndsHaltedOrFaulted : Obligations.RunEndsHaltedOrFaulted := by
  intro c fuel s t next
  by_cases running : s.runState = .running
  · rw [run, betweenRuns_of_running running] at next
    exact nomatch next
  · rw [run, betweenRuns_of_not_running running] at next
    exact ended_of_runLoop (startRun_runState s) next

/-- Settles O54: `runLoop_default_eq_core_run` from the state `run()` starts at. -/
theorem runIsRepeatedSteps : Obligations.RunIsRepeatedSteps := by
  intro fuel s idle
  rw [run, betweenRuns_of_not_running idle]
  exact runLoop_default_eq_core_run fuel (startRun s)

/-- Settles O55: `runLoop_of_inx_everywhere` from the state `run()` starts at. -/
theorem inxEverywhereNeverEnds : Obligations.InxEverywhereNeverEnds := by
  intro fuel s idle inx
  rw [run, betweenRuns_of_not_running idle]
  exact runLoop_of_inx_everywhere (startRun_runState s) inx fuel

/-! ### The statements on the accessors -/

/-- Settles O56: each write is let through between runs and keeps the run state, so the reads after it are let through too. -/
theorem accessorsReadBack : Obligations.AccessorsReadBack := by
  intro s idle
  refine ⟨fun r v => ?register, fun v => ?pc, fun canonical addr v => ?memory⟩
  case register =>
    obtain ⟨pc, runState, mem⟩ := State.setRegister_frame s r v
    refine ⟨_, betweenRuns_of_not_running idle, ?_, fun q ne => ?_, pc, runState, fun addr => by rw [State.read, mem, State.read]⟩
    · rw [hostReadRegister, State.setRegister_register, accessorRead_of_not_running (runState.symm ▸ idle)]
    · rw [hostReadRegister, State.setRegister_register_other s ne, accessorRead_congr runState, hostReadRegister]
  case pc =>
    exact ⟨_, betweenRuns_of_not_running idle, accessorRead_of_not_running (s := s.setPc v) idle v, fun q => by cases q <;> rfl, rfl,
      fun _ => rfl⟩
  case memory =>
    refine ⟨_, betweenRuns_of_not_running idle, ?_, fun other ne => ?_, fun q => by cases q <;> rfl, rfl, rfl⟩
    · rw [hostReadMemory, State.write_read_same canonical, accessorRead_of_not_running (s := s.write addr v) idle]
    · rw [hostReadMemory, State.write_read_other s ne]
      rfl

/-- Settles O57: P is one stored byte of which each flag is a bit, and reset writes it whole. -/
theorem statusByteIsAllStorage : Obligations.StatusByteIsAllStorage := by
  intro c s v idle
  exact ⟨s.setP v, resetState c (s.setP v), betweenRuns_of_not_running idle,
    accessorRead_of_not_running (s := s.setP v) idle v, fun _ => rfl, reset_of_not_running (s := s.setP v) idle,
    accessorRead_of_not_running (s := resetState c (s.setP v)) RunState.noConfusion 0x00⟩

/-- Settles O58: every operation of the host is `betweenRuns` or `accessorRead` of something. -/
theorem hostOperationsRefusedDuringRun : Obligations.HostOperationsRefusedDuringRun := by
  intro c s fuel image r v addr running
  have refused (o : Host.Outcome State Fault Refusal) : betweenRuns s o = .refused .runInProgress := betweenRuns_of_running running
  have load_refused : load c image s = .refused .runInProgress := refused _
  refine ⟨refused _, load_refused, refused _, ?_, accessorRead_of_running running _, refused _, accessorRead_of_running running _,
    refused _, accessorRead_of_running running _, refused _⟩
  rw [loadAndRun, load_refused]

end Sys2Proof.Machine
end
